-- ==== Sys2Proof/Word.lean ====
section
/-! DEFINITION. The plain types of the decoder: the 32-bit word (R10), the 5-bit register index (R5) and text (R11). -/

namespace Sys2Proof

/-- A 32-bit instruction word, address or target (spec/10_state.md R10, R11). Bit 0 is the least significant. -/
abbrev Word := BitVec 32

/-- A 5-bit register index, which the hardware only looks up for its name (R5, R14). -/
abbrev RegIndex := BitVec 5

/-- A text: its characters from left to right (spec/92_eei_decisions.md D20: the packing on wires is not modelled).
DESIGN CHOICE, log entry 8. -/
abbrev Text := List Char

end Sys2Proof
end

