-- ==== Sys2Proof/Syntax.lean ====
section
/-! DEFINITION. The 38 recognised instructions (spec/opcode_table.json), the mnemonics, the operand forms (R48), the decode
failures (R93), and a decoded instruction as `Ok(mnemonic, form, operands)` (R1). -/

namespace Sys2Proof

/-- The 38 mnemonics, in the row order of spec/opcode_table.json (R24). `break_` is `break`, which Lean reserves. -/
inductive Mnemonic where
  | sll | srl | sra | jr | jalr | syscall | break_ | mfhi | mthi | mflo | mtlo | mult | div
  | add | sub | and | or | xor | nor | slt | bltz | bgez | j | jal | lui | lb | lw | sb | sw
  | beq | bne | blez | bgtz | addi | slti | andi | ori | xori
  deriving DecidableEq, Repr

/-- The twelve operand forms of R48, named as there. -/
inductive Form where
  /-- SHIFT: `rd, rt, shamt`. -/
  | shift
  /-- RS: `rs`. -/
  | rs
  /-- NONE: no operand. -/
  | none
  /-- RD: `rd`. -/
  | rd
  /-- RS_RT: `rs, rt`. -/
  | rsRt
  /-- RD_RS_RT: `rd, rs, rt`. -/
  | rdRsRt
  /-- REGIMM: `rs, hex(imm16)`. -/
  | regImm
  /-- JUMP: `hex(jtarget)`. -/
  | jump
  /-- LUI: `rt` and `hex(imm16)` as one operand. -/
  | lui
  /-- MEM: `rt, disp(rs)`. -/
  | mem
  /-- BRANCH: `rt, rs, hex(btarget)`. -/
  | branch
  /-- RT_RS_SIMM: `rt, rs, shex(imm)`. -/
  | rtRsSimm
  deriving DecidableEq, Repr

/-- The three decode failures (R93). -/
inductive FailKind where
  /-- The primary opcode has no entry in the OpcodeTable (R46). -/
  | unknownOpcode
  /-- Opcode 0 with a function code that has no entry in the FunctionCodeTable (R40). -/
  | unknownFunctionCode
  /-- Opcode 1 with an `rt` field that is neither 0 nor 1 (R41, R75). -/
  | unhandledBranchSelector
  deriving DecidableEq, Repr

/-- An entry of the OpcodeTable: a mnemonic or one of two sentinels (R12). -/
inductive OpcodeEntry where
  /-- Sentinel REG-REG: go on with the function code (R40). -/
  | regReg
  /-- Sentinel REGIMM: go on with the `rt` selector (R41). -/
  | regImm
  /-- A mnemonic. -/
  | mnemonic (m : Mnemonic)
  deriving DecidableEq, Repr

/-- A recognised instruction with the fields its row of spec/opcode_table.json renders, in the row's order. The bits no rule
of a family reads are not part of it (R42; DESIGN CHOICE, log entry 11). -/
inductive Instr where
  /-- R53. -/
  | sll (rd rt : RegIndex) (shamt : BitVec 5)
  /-- R54. -/
  | srl (rd rt : RegIndex) (shamt : BitVec 5)
  /-- R55. -/
  | sra (rd rt : RegIndex) (shamt : BitVec 5)
  /-- R56. -/
  | jr (rs : RegIndex)
  /-- R57. -/
  | jalr (rs : RegIndex)
  /-- R58. -/
  | syscall
  /-- R59. -/
  | break_
  /-- R60. -/
  | mfhi (rd : RegIndex)
  /-- R61. -/
  | mthi (rd : RegIndex)
  /-- R62. -/
  | mflo (rd : RegIndex)
  /-- R63. -/
  | mtlo (rd : RegIndex)
  /-- R64. -/
  | mult (rs rt : RegIndex)
  /-- R65. -/
  | div (rs rt : RegIndex)
  /-- R66. -/
  | add (rd rs rt : RegIndex)
  /-- R67. -/
  | sub (rd rs rt : RegIndex)
  /-- R68. -/
  | and (rd rs rt : RegIndex)
  /-- R69. -/
  | or (rd rs rt : RegIndex)
  /-- R70. -/
  | xor (rd rs rt : RegIndex)
  /-- R71. -/
  | nor (rd rs rt : RegIndex)
  /-- R72. -/
  | slt (rd rs rt : RegIndex)
  /-- R73. -/
  | bltz (rs : RegIndex) (imm16 : BitVec 16)
  /-- R74. -/
  | bgez (rs : RegIndex) (imm16 : BitVec 16)
  /-- R76. -/
  | j (addr26 : BitVec 26)
  /-- R77. -/
  | jal (addr26 : BitVec 26)
  /-- R78. -/
  | lui (rt : RegIndex) (imm16 : BitVec 16)
  /-- R79. -/
  | lb (rt rs : RegIndex) (imm16 : BitVec 16)
  /-- R80. -/
  | lw (rt rs : RegIndex) (imm16 : BitVec 16)
  /-- R81. -/
  | sb (rt rs : RegIndex) (imm16 : BitVec 16)
  /-- R82. -/
  | sw (rt rs : RegIndex) (imm16 : BitVec 16)
  /-- R83. -/
  | beq (rt rs : RegIndex) (imm16 : BitVec 16)
  /-- R84. -/
  | bne (rt rs : RegIndex) (imm16 : BitVec 16)
  /-- R85. -/
  | blez (rt rs : RegIndex) (imm16 : BitVec 16)
  /-- R86. -/
  | bgtz (rt rs : RegIndex) (imm16 : BitVec 16)
  /-- R87. -/
  | addi (rt rs : RegIndex) (imm16 : BitVec 16)
  /-- R88. -/
  | slti (rt rs : RegIndex) (imm16 : BitVec 16)
  /-- R89. -/
  | andi (rt rs : RegIndex) (imm16 : BitVec 16)
  /-- R90. -/
  | ori (rt rs : RegIndex) (imm16 : BitVec 16)
  /-- R91. -/
  | xori (rt rs : RegIndex) (imm16 : BitVec 16)
  deriving DecidableEq, Repr

/-- The mnemonic of an instruction. -/
def Instr.mnemonic : Instr → Mnemonic
  | .sll _ _ _ => .sll
  | .srl _ _ _ => .srl
  | .sra _ _ _ => .sra
  | .jr _ => .jr
  | .jalr _ => .jalr
  | .syscall => .syscall
  | .break_ => .break_
  | .mfhi _ => .mfhi
  | .mthi _ => .mthi
  | .mflo _ => .mflo
  | .mtlo _ => .mtlo
  | .mult _ _ => .mult
  | .div _ _ => .div
  | .add _ _ _ => .add
  | .sub _ _ _ => .sub
  | .and _ _ _ => .and
  | .or _ _ _ => .or
  | .xor _ _ _ => .xor
  | .nor _ _ _ => .nor
  | .slt _ _ _ => .slt
  | .bltz _ _ => .bltz
  | .bgez _ _ => .bgez
  | .j _ => .j
  | .jal _ => .jal
  | .lui _ _ => .lui
  | .lb _ _ _ => .lb
  | .lw _ _ _ => .lw
  | .sb _ _ _ => .sb
  | .sw _ _ _ => .sw
  | .beq _ _ _ => .beq
  | .bne _ _ _ => .bne
  | .blez _ _ _ => .blez
  | .bgtz _ _ _ => .bgtz
  | .addi _ _ _ => .addi
  | .slti _ _ _ => .slti
  | .andi _ _ _ => .andi
  | .ori _ _ _ => .ori
  | .xori _ _ _ => .xori

/-- What the dispatch answers on a word: an instruction, or one of the three failures (R1, R49). -/
inductive DecodeResult where
  /-- The word is a recognised instruction. -/
  | ok (i : Instr)
  /-- The word reaches a failure, which is a value and not a trap (R92). -/
  | fail (k : FailKind)
  deriving DecidableEq, Repr

/-- `Ok(mnemonic, form, operands)`: the mnemonic and the rendered operand list (R1, R48, D4). -/
structure DecodedInstruction where
  /-- The mnemonic. -/
  mnemonic : Mnemonic
  /-- The operand form. -/
  form : Form
  /-- The operand strings, in the order they are printed. -/
  operands : List Text
  deriving DecidableEq, Repr

end Sys2Proof
end

