-- ==== Sys2Proof/Machine/Flags.lean ====
section
/-! DEFINITION. The status and code outputs: the failure codes on `err` (R93), the mnemonic ids on `mnem` (R24) and the form
codes on `form` (R48). The decoder holds no flags or condition codes, so there is no flag computation (R19). -/

namespace Sys2Proof.Machine

/-- The code of a failure on `err`; a word that decoded has 0 there (R93, D12). -/
def failCode : FailKind → BitVec 2
  | .unknownOpcode => 0b01
  | .unknownFunctionCode => 0b10
  | .unhandledBranchSelector => 0b11

/-- The mnemonic id on `mnem` (R24, D13). -/
def mnemonicId : Mnemonic → BitVec 6
  | .sll => 0
  | .srl => 1
  | .sra => 2
  | .jr => 3
  | .jalr => 4
  | .syscall => 5
  | .break_ => 6
  | .mfhi => 7
  | .mthi => 8
  | .mflo => 9
  | .mtlo => 10
  | .mult => 11
  | .div => 12
  | .add => 13
  | .sub => 14
  | .and => 15
  | .or => 16
  | .xor => 17
  | .nor => 18
  | .slt => 19
  | .bltz => 20
  | .bgez => 21
  | .j => 22
  | .jal => 23
  | .lui => 24
  | .lb => 25
  | .lw => 26
  | .sb => 27
  | .sw => 28
  | .beq => 29
  | .bne => 30
  | .blez => 31
  | .bgtz => 32
  | .addi => 33
  | .slti => 34
  | .andi => 35
  | .ori => 36
  | .xori => 37

/-- The form code on `form` (R48). -/
def formCode : Form → BitVec 4
  | .shift => 0
  | .rs => 1
  | .none => 2
  | .rd => 3
  | .rsRt => 4
  | .rdRsRt => 5
  | .regImm => 6
  | .jump => 7
  | .lui => 8
  | .mem => 9
  | .branch => 10
  | .rtRsSimm => 11

end Sys2Proof.Machine
end

