-- ==== Sys2Proof/Config.lean ====
section
/-! DEFINITION. The parameters of the hardware (spec/00_scope.md section 4) and the free values: what the spec leaves
unspecified and a model must treat as arbitrary (R107, I2, I3). -/

namespace Sys2Proof

/-- The two parameters a chip fixes (spec/00_scope.md section 4). They stand in State, where no step writes them, so that
a statement about every state holds for every setting of them. DESIGN CHOICE, log entry 1. -/
structure Config where
  /-- PIPELINED: false is the combinational decoder, true the one with an output register stage (D1, OPEN). -/
  pipelined : Bool
  /-- BRANCH_OFFSET_SIGNED: the branch offset of opcodes 4 to 7 is sign-extended (D2; the default is true). -/
  branchOffsetSigned : Bool
  deriving DecidableEq, Repr

namespace Config

/-- The setting `State.reset` has: the pipelined variant, since only it has a reset (R106, R107; DESIGN CHOICE, log
entry 1), with the spec's default for the branch offset (D2). -/
def standard : Config := { pipelined := true, branchOffsetSigned := true }

/-- TEXT_MAX, the longest result text (spec/00_scope.md section 4). -/
def textMax : Nat := 27

/-- How many register names there are (spec/00_scope.md section 4). -/
def registerNameCount : Nat := 32

/-! The free values. `n` counts the draws: the payload after a reset edge (R107, I2), and `out_valid` after every edge before
the first reset edge (R107, I3), is a fresh one each time. Nothing can be proved of what any of them is. Log entries 5, 6
and 16. -/

/-- An unspecified `out_valid`: after power-up and before the first reset edge (R107, I3). -/
opaque freeOutValid : Nat → Bool
/-- An unspecified `ok` (R107). -/
opaque freeOk : Nat → Bool
/-- An unspecified `err` (R107). -/
opaque freeErr : Nat → BitVec 2
/-- An unspecified `mnem` (R107). -/
opaque freeMnem : Nat → BitVec 6
/-- An unspecified `form` (R107). -/
opaque freeForm : Nat → BitVec 4
/-- An unspecified `opcode` (R107). -/
opaque freeOpcode : Nat → BitVec 6
/-- An unspecified `rs` (R107). -/
opaque freeRs : Nat → BitVec 5
/-- An unspecified `rt` (R107). -/
opaque freeRt : Nat → BitVec 5
/-- An unspecified `rd` (R107). -/
opaque freeRd : Nat → BitVec 5
/-- An unspecified `shamt` (R107). -/
opaque freeShamt : Nat → BitVec 5
/-- An unspecified `funct` (R107). -/
opaque freeFunct : Nat → BitVec 6
/-- An unspecified `imm16` (R107). -/
opaque freeImm16 : Nat → BitVec 16
/-- An unspecified `addr26` (R107). -/
opaque freeAddr26 : Nat → BitVec 26
/-- An unspecified `simm` (R107). -/
opaque freeSimm : Nat → Word
/-- An unspecified `btarget` (R107). -/
opaque freeBtarget : Nat → Word
/-- An unspecified `jtarget` (R107). -/
opaque freeJtarget : Nat → Word
/-- An unspecified text, of which the port holds at most the first TEXT_MAX characters (R107, I2). -/
opaque freeText : Nat → Text

end Config

end Sys2Proof
end

