-- ==== Sys2Proof/Decode.lean ====
section
/-! DEFINITION. The field extractor (R37), the sign-extender (R38), the dispatch tables (R12, R13, R15), the dispatch (R39 to
R41, R46), total on all 2^32 words, and after it the encoder written from the same layouts (R34 to R36). -/

namespace Sys2Proof

/-! ### Field extractor (R34 to R37) -/

/-- `field(word, offset, width) = (word >> offset) mod 2^width` (R37). -/
def field (w : Word) (offset width : Nat) : BitVec width := BitVec.ofNat width (w.toNat >>> offset)

/-- `word[31:26]` (R37). -/
def opcodeOf (w : Word) : BitVec 6 := field w 26 6
/-- `word[25:21]` (R37). -/
def rsOf (w : Word) : RegIndex := field w 21 5
/-- `word[20:16]` (R37). -/
def rtOf (w : Word) : RegIndex := field w 16 5
/-- `word[15:11]` (R37). -/
def rdOf (w : Word) : RegIndex := field w 11 5
/-- `word[10:6]` (R37). -/
def shamtOf (w : Word) : BitVec 5 := field w 6 5
/-- `word[5:0]` (R37). -/
def functOf (w : Word) : BitVec 6 := field w 0 6
/-- `word[15:0]` (R37). -/
def imm16Of (w : Word) : BitVec 16 := field w 0 16
/-- `word[25:0]` (R37). -/
def addr26Of (w : Word) : BitVec 26 := field w 0 26

/-! ### Signs and widths (R38, spec/00_scope.md section 5) -/

/-- The immediate sign-extender: the value unchanged when bit 15 is 0, else the value less 65536 (R38). -/
def sext16 (v : BitVec 16) : Int := if v.msb then (v.toNat : Int) - 65536 else v.toNat

/-- `to32(i) = i mod 2^32` (spec/00_scope.md section 5). -/
def to32 (i : Int) : Word := BitVec.ofInt 32 i

/-! ### Dispatch tables, constant ROM (R16) -/

/-- The OpcodeTable (R12); every opcode not listed is absent. -/
def opcodeTable : List (BitVec 6 × OpcodeEntry) :=
  [(0, .regReg), (1, .regImm), (2, .mnemonic .j), (3, .mnemonic .jal), (4, .mnemonic .beq), (5, .mnemonic .bne),
    (6, .mnemonic .blez), (7, .mnemonic .bgtz), (8, .mnemonic .addi), (10, .mnemonic .slti)] ++
  [(12, .mnemonic .andi), (13, .mnemonic .ori), (14, .mnemonic .xori), (15, .mnemonic .lui), (32, .mnemonic .lb),
    (35, .mnemonic .lw), (40, .mnemonic .sb), (43, .mnemonic .sw)]

/-- The FunctionCodeTable, consulted only when the opcode is 0 (R13); every code not listed is absent. -/
def functionCodeTable : List (BitVec 6 × Mnemonic) :=
  [(0, .sll), (2, .srl), (3, .sra), (8, .jr), (9, .jalr), (12, .syscall), (13, .break_), (16, .mfhi), (17, .mthi),
    (18, .mflo), (19, .mtlo)] ++
  [(24, .mult), (26, .div), (32, .add), (34, .sub), (36, .and), (37, .or), (38, .xor), (39, .nor), (42, .slt)]

/-- The opcode-1 selector table, indexed by the `rt` field (R15). -/
def selectorTable : List (BitVec 5 × Mnemonic) := [(0, .bltz), (1, .bgez)]

/-- The operand form of each mnemonic, as the table of R48 lists it under "used by". -/
def formOf : Mnemonic → Form
  | .sll | .srl | .sra => .shift
  | .jr | .jalr => .rs
  | .syscall | .break_ => .none
  | .mfhi | .mthi | .mflo | .mtlo => .rd
  | .mult | .div => .rsRt
  | .add | .sub | .and | .or | .xor | .nor | .slt => .rdRsRt
  | .bltz | .bgez => .regImm
  | .j | .jal => .jump
  | .lui => .lui
  | .lb | .lw | .sb | .sw => .mem
  | .beq | .bne | .blez | .bgtz => .branch
  | .addi | .slti | .andi | .ori | .xori => .rtRsSimm

/-! ### Dispatch -/

/-- The instruction of mnemonic `m` with the fields of `w` that its row renders (spec/opcode_table.json "fields"). -/
def assemble (m : Mnemonic) (w : Word) : Instr :=
  match m with
  | .sll => .sll (rdOf w) (rtOf w) (shamtOf w)
  | .srl => .srl (rdOf w) (rtOf w) (shamtOf w)
  | .sra => .sra (rdOf w) (rtOf w) (shamtOf w)
  | .jr => .jr (rsOf w)
  | .jalr => .jalr (rsOf w)
  | .syscall => .syscall
  | .break_ => .break_
  | .mfhi => .mfhi (rdOf w)
  | .mthi => .mthi (rdOf w)
  | .mflo => .mflo (rdOf w)
  | .mtlo => .mtlo (rdOf w)
  | .mult => .mult (rsOf w) (rtOf w)
  | .div => .div (rsOf w) (rtOf w)
  | .add => .add (rdOf w) (rsOf w) (rtOf w)
  | .sub => .sub (rdOf w) (rsOf w) (rtOf w)
  | .and => .and (rdOf w) (rsOf w) (rtOf w)
  | .or => .or (rdOf w) (rsOf w) (rtOf w)
  | .xor => .xor (rdOf w) (rsOf w) (rtOf w)
  | .nor => .nor (rdOf w) (rsOf w) (rtOf w)
  | .slt => .slt (rdOf w) (rsOf w) (rtOf w)
  | .bltz => .bltz (rsOf w) (imm16Of w)
  | .bgez => .bgez (rsOf w) (imm16Of w)
  | .j => .j (addr26Of w)
  | .jal => .jal (addr26Of w)
  | .lui => .lui (rtOf w) (imm16Of w)
  | .lb => .lb (rtOf w) (rsOf w) (imm16Of w)
  | .lw => .lw (rtOf w) (rsOf w) (imm16Of w)
  | .sb => .sb (rtOf w) (rsOf w) (imm16Of w)
  | .sw => .sw (rtOf w) (rsOf w) (imm16Of w)
  | .beq => .beq (rtOf w) (rsOf w) (imm16Of w)
  | .bne => .bne (rtOf w) (rsOf w) (imm16Of w)
  | .blez => .blez (rtOf w) (rsOf w) (imm16Of w)
  | .bgtz => .bgtz (rtOf w) (rsOf w) (imm16Of w)
  | .addi => .addi (rtOf w) (rsOf w) (imm16Of w)
  | .slti => .slti (rtOf w) (rsOf w) (imm16Of w)
  | .andi => .andi (rtOf w) (rsOf w) (imm16Of w)
  | .ori => .ori (rtOf w) (rsOf w) (imm16Of w)
  | .xori => .xori (rtOf w) (rsOf w) (imm16Of w)

/-- Register-register dispatch on the function code (R40). -/
def decodeRegReg (w : Word) : DecodeResult :=
  match functionCodeTable.lookup (functOf w) with
  | some m => .ok (assemble m w)
  | none => .fail .unknownFunctionCode

/-- Register-immediate branch dispatch on the `rt` field (R41, R75). -/
def decodeRegImm (w : Word) : DecodeResult :=
  match selectorTable.lookup (rtOf w) with
  | some m => .ok (assemble m w)
  | none => .fail .unhandledBranchSelector

/-- Primary dispatch on the opcode (R39); an absent opcode fails whatever the other fields hold (R46, R95). -/
def decode (w : Word) : DecodeResult :=
  match opcodeTable.lookup (opcodeOf w) with
  | some .regReg => decodeRegReg w
  | some .regImm => decodeRegImm w
  | some (.mnemonic m) => .ok (assemble m w)
  | none => .fail .unknownOpcode

/-- The instruction this decoder reads from a table row's bits. Every instruction is one 32-bit word with no byte order
(R26, R33), so the word is the number itself. -/
def decodeTableWord (nbits w : Nat) : Option Instr :=
  match decode (BitVec.ofNat 32 (w % 2 ^ nbits)) with
  | .ok i => some i
  | .fail _ => none

/-! ### Encoder: the same layouts, read the other way. A field the instruction does not have is 0 (log entry 11). -/

/-- The register-register layout (R34), which opcode 0 uses. -/
def encodeR (rs rt rd : RegIndex) (shamt : BitVec 5) (funct : BitVec 6) : Word :=
  0#6 ++ rs ++ rt ++ rd ++ shamt ++ funct

/-- The immediate layout (R35). -/
def encodeI (opcode : BitVec 6) (rs rt : RegIndex) (imm16 : BitVec 16) : Word := opcode ++ rs ++ rt ++ imm16

/-- The jump layout (R36). -/
def encodeJ (opcode : BitVec 6) (addr26 : BitVec 26) : Word := opcode ++ addr26

/-- The word of an instruction (spec/opcode_table.json "match" and "fields"). -/
def encode : Instr → Word
  | .sll rd rt shamt => encodeR 0 rt rd shamt 0
  | .srl rd rt shamt => encodeR 0 rt rd shamt 2
  | .sra rd rt shamt => encodeR 0 rt rd shamt 3
  | .jr rs => encodeR rs 0 0 0 8
  | .jalr rs => encodeR rs 0 0 0 9
  | .syscall => encodeR 0 0 0 0 12
  | .break_ => encodeR 0 0 0 0 13
  | .mfhi rd => encodeR 0 0 rd 0 16
  | .mthi rd => encodeR 0 0 rd 0 17
  | .mflo rd => encodeR 0 0 rd 0 18
  | .mtlo rd => encodeR 0 0 rd 0 19
  | .mult rs rt => encodeR rs rt 0 0 24
  | .div rs rt => encodeR rs rt 0 0 26
  | .add rd rs rt => encodeR rs rt rd 0 32
  | .sub rd rs rt => encodeR rs rt rd 0 34
  | .and rd rs rt => encodeR rs rt rd 0 36
  | .or rd rs rt => encodeR rs rt rd 0 37
  | .xor rd rs rt => encodeR rs rt rd 0 38
  | .nor rd rs rt => encodeR rs rt rd 0 39
  | .slt rd rs rt => encodeR rs rt rd 0 42
  | .bltz rs imm16 => encodeI 1 rs 0 imm16
  | .bgez rs imm16 => encodeI 1 rs 1 imm16
  | .j addr26 => encodeJ 2 addr26
  | .jal addr26 => encodeJ 3 addr26
  | .lui rt imm16 => encodeI 15 0 rt imm16
  | .lb rt rs imm16 => encodeI 32 rs rt imm16
  | .lw rt rs imm16 => encodeI 35 rs rt imm16
  | .sb rt rs imm16 => encodeI 40 rs rt imm16
  | .sw rt rs imm16 => encodeI 43 rs rt imm16
  | .beq rt rs imm16 => encodeI 4 rs rt imm16
  | .bne rt rs imm16 => encodeI 5 rs rt imm16
  | .blez rt rs imm16 => encodeI 6 rs rt imm16
  | .bgtz rt rs imm16 => encodeI 7 rs rt imm16
  | .addi rt rs imm16 => encodeI 8 rs rt imm16
  | .slti rt rs imm16 => encodeI 10 rs rt imm16
  | .andi rt rs imm16 => encodeI 12 rs rt imm16
  | .ori rt rs imm16 => encodeI 13 rs rt imm16
  | .xori rt rs imm16 => encodeI 14 rs rt imm16

end Sys2Proof
end

