-- ==== Sys2Proof/Machine/Operands.lean ====
section
/-! DEFINITION. How operands are spelled and targets computed: the text primitives (R2 to R5), the name tables (R9, R14), the
target adders (R43, R44), the displacement selector (R47) and the result text (R6 to R8). -/

namespace Sys2Proof.Machine

/-! ### Numbers (R2 to R4) -/

/-- The digit characters `0` to `9`, `a` to `f` (R2). -/
def digitChars : List Char := "0123456789abcdef".toList

/-- The character of a digit below 16. -/
def digitChar (d : Nat) : Char := digitChars.getD d '0'

/-- The base-`b` digits of `n`, most significant first, put before `acc`. The fuel `n + 1` always suffices for `b ≥ 2`. -/
def digitsBefore (b : Nat) : Nat → Nat → Text → Text
  | 0, _, acc => acc
  | fuel + 1, n, acc =>
    if n < b then digitChar n :: acc else digitsBefore b fuel (n / b) (digitChar (n % b) :: acc)

/-- The base-`b` digits of `n`, with no leading zero but for 0 itself. -/
def digits (b n : Nat) : Text := digitsBefore b (n + 1) n []

/-- `hex(n)`: `0x` and the lowercase digits (R2). -/
def hex (n : Nat) : Text := '0' :: 'x' :: digits 16 n

/-- `shex(i)`: a negative value as `-` and the hex of its opposite (R3). -/
def shex (i : Int) : Text := if i < 0 then '-' :: hex (-i).toNat else hex i.toNat

/-- `dec(i)`: the base-10 digits, with a leading `-` when negative (R4). -/
def dec (i : Int) : Text := if i < 0 then '-' :: digits 10 (-i).toNat else digits 10 i.toNat

/-! ### Names (R5, R9, R14) -/

/-- The RegisterNameTable, indices 0 to 31 in order (R14). -/
def registerNameTable : List Text :=
  ["$zero".toList, "$at".toList, "$v0".toList, "$v1".toList, "$a0".toList, "$a1".toList, "$a2".toList, "$a3".toList] ++
  ["$t0".toList, "$t1".toList, "$t2".toList, "$t3".toList, "$t4".toList, "$t5".toList, "$t6".toList, "$t7".toList] ++
  ["$s0".toList, "$s1".toList, "$s2".toList, "$s3".toList, "$s4".toList, "$s5".toList, "$s6".toList, "$s7".toList] ++
  ["$t8".toList, "$t9".toList, "$k0".toList, "$k1".toList, "$gp".toList, "$sp".toList, "$fp".toList, "$ra".toList]

/-- `reg(i) = RegisterNameTable[i]` (R5). The table is total, so the default is never read. -/
def reg (i : RegIndex) : Text := registerNameTable.getD i.toNat []

/-- The spelling of a mnemonic (R9): the "mnemonic" column of spec/opcode_table.json. -/
def mnemonicText : Mnemonic → Text
  | .sll => "sll".toList
  | .srl => "srl".toList
  | .sra => "sra".toList
  | .jr => "jr".toList
  | .jalr => "jalr".toList
  | .syscall => "syscall".toList
  | .break_ => "break".toList
  | .mfhi => "mfhi".toList
  | .mthi => "mthi".toList
  | .mflo => "mflo".toList
  | .mtlo => "mtlo".toList
  | .mult => "mult".toList
  | .div => "div".toList
  | .add => "add".toList
  | .sub => "sub".toList
  | .and => "and".toList
  | .or => "or".toList
  | .xor => "xor".toList
  | .nor => "nor".toList
  | .slt => "slt".toList
  | .bltz => "bltz".toList
  | .bgez => "bgez".toList
  | .j => "j".toList
  | .jal => "jal".toList
  | .lui => "lui".toList
  | .lb => "lb".toList
  | .lw => "lw".toList
  | .sb => "sb".toList
  | .sw => "sw".toList
  | .beq => "beq".toList
  | .bne => "bne".toList
  | .blez => "blez".toList
  | .bgtz => "bgtz".toList
  | .addi => "addi".toList
  | .slti => "slti".toList
  | .andi => "andi".toList
  | .ori => "ori".toList
  | .xori => "xori".toList

/-! ### Targets and displacements (R43, R44, R47) -/

/-- The branch offset as an integer: sign-extended, or raw when BRANCH_OFFSET_SIGNED is false (R43, D2). -/
def branchOffset (c : Config) (imm16 : BitVec 16) : Int :=
  if c.branchOffsetSigned then sext16 imm16 else imm16.toNat

/-- `btarget = to32(pc + 4 + 4 * off)`, with no alignment asked of `pc` (R43, R27). -/
def branchTarget (c : Config) (pc : Word) (imm16 : BitVec 16) : Word :=
  to32 ((pc.toNat : Int) + 4 + 4 * branchOffset c imm16)

/-- `jtarget = zext_32(addr26 ++ 0b00)`; it takes no bits of `pc` (R44). -/
def jumpTarget (addr26 : BitVec 26) : Word := (addr26 ++ 0b00#2).setWidth 32

/-- The load/store displacement string, chosen on the raw field (R47, C3). -/
def displacement (imm16 : BitVec 16) : Text :=
  if 0x8000 ≤ imm16.toNat then hex imm16.toNat else dec (sext16 imm16)

/-- The second operand of the MEM form, `disp(rs)` (R48). -/
def memOperand (rs : RegIndex) (imm16 : BitVec 16) : Text := displacement imm16 ++ '(' :: reg rs ++ [')']

/-! ### Result text (R6 to R8) -/

/-- Operand strings joined by a single comma, with no space (R6, C1). -/
def joinOperands : List Text → Text
  | [] => []
  | [o] => o
  | o :: os => o ++ ',' :: joinOperands os

/-- The text of `Ok(m, form, operands)`: with no operand the mnemonic alone (R7), else one space between (R6). -/
def renderOk (d : DecodedInstruction) : Text :=
  match d.operands with
  | [] => mnemonicText d.mnemonic
  | o :: os => mnemonicText d.mnemonic ++ ' ' :: joinOperands (o :: os)

/-- The text of `Fail(kind)`, whatever the kind (R8). -/
def renderFail : Text := "error".toList

end Sys2Proof.Machine
end

