-- ==== Sys2Proof/Machine/State.lean ====
section
/-! DEFINITION. The state of the decoder: its parameters, its input ports, its outputs (spec/10_state.md R10, R11, R20 to
R23) and its value after reset (R107). There is no register file, flag, memory or trap state to hold (R19, R25, R97). -/

namespace Sys2Proof.Machine

/-- The input ports (R10), with the pipelined variant's `rst` and `in_valid` (R20). `clk` is the step itself. -/
structure Inputs where
  /-- `word[31:0]`, the instruction word. -/
  word : Word
  /-- `pc[31:0]`, the address of that word. -/
  pc : Word
  /-- `rst`, synchronous and active high (R20); not present in the combinational variant. -/
  rst : Bool
  /-- `in_valid` (R20); not present in the combinational variant. -/
  inValid : Bool
  deriving DecidableEq, Repr

/-- The outputs of R11. In the pipelined variant they are the payload registers (R20). -/
structure Outputs where
  /-- The result is `Ok`. -/
  ok : Bool
  /-- The failure's code (R93). -/
  err : BitVec 2
  /-- The mnemonic id (R24). -/
  mnem : BitVec 6
  /-- The form code (R48). -/
  form : BitVec 4
  /-- The raw field. -/
  opcode : BitVec 6
  /-- The raw field. -/
  rs : BitVec 5
  /-- The raw field. -/
  rt : BitVec 5
  /-- The raw field. -/
  rd : BitVec 5
  /-- The raw field. -/
  shamt : BitVec 5
  /-- The raw field. -/
  funct : BitVec 6
  /-- The raw field. -/
  imm16 : BitVec 16
  /-- The raw field. -/
  addr26 : BitVec 26
  /-- The sign-extended immediate (R38). -/
  simm : Word
  /-- The branch target (R43). -/
  btarget : Word
  /-- The jump target (R44). -/
  jtarget : Word
  /-- The result text (R6 to R8), the normative observation. -/
  text : Text
  deriving DecidableEq, Repr

/-- The whole state. -/
structure State where
  /-- The parameters, which no step writes (log entry 1). -/
  cfg : Config
  /-- The input ports as they stand now. -/
  inp : Inputs
  /-- The model's own: what the host will present next, oldest first (R101; log entry 3). -/
  pending : List Inputs
  /-- `out_valid` (R20); not present in the combinational variant, where nothing writes it (log entry 7). -/
  outValid : Bool
  /-- The outputs (R11). -/
  out : Outputs
  /-- The model's own: a reset edge has come, so that `out_valid` can be relied on (R107, R108; log entry 16). -/
  resetSeen : Bool
  /-- The model's own: how many times an unspecified value has been drawn (log entries 5 and 16). -/
  draws : Nat
  deriving DecidableEq, Repr

/-- Why the machine would stop with a fault. It never does: a decode failure is a returned value, and the decoder "never
raises an exception or aborts the process for any 32-bit input" (R1, R92). So there is no constructor (log entry 9). -/
inductive Fault where
  deriving DecidableEq, Repr

/-- Why an instruction would have no meaning. -/
inductive Refusal where
  /-- The arm of an instruction that has no meaning yet. Safe. No arm of `exec` raises it. -/
  | notModelled (mnemonic : String)
  deriving DecidableEq, Repr

/-- The `n`-th unspecified payload: an arbitrary value of each output's width, the text at most TEXT_MAX characters (R107,
I2). Log entry 5. -/
def Outputs.free (n : Nat) : Outputs where
  ok := Config.freeOk n
  err := Config.freeErr n
  mnem := Config.freeMnem n
  form := Config.freeForm n
  opcode := Config.freeOpcode n
  rs := Config.freeRs n
  rt := Config.freeRt n
  rd := Config.freeRd n
  shamt := Config.freeShamt n
  funct := Config.freeFunct n
  imm16 := Config.freeImm16 n
  addr26 := Config.freeAddr26 n
  simm := Config.freeSimm n
  btarget := Config.freeBtarget n
  jtarget := Config.freeJtarget n
  text := (Config.freeText n).take Config.textMax

/-- The input ports with nothing presented. DESIGN CHOICE, log entry 4. -/
def Inputs.idle : Inputs := { word := 0, pc := 0, rst := false, inValid := false }

/-- After power-up and before the first reset edge: the payload and `out_valid` are unspecified (R107, I3). `c` is the
chip's setting and `p` what the host will present. Log entry 6. -/
def State.powerUp (c : Config) (p : List Inputs) : State where
  cfg := c
  inp := Inputs.idle
  pending := p
  outValid := Config.freeOutValid 0
  out := Outputs.free 0
  resetSeen := false
  draws := 1

/-- After a reset edge: `out_valid` is 0 and the payload is unspecified (R107); nothing is presented yet. -/
def State.reset : State where
  cfg := Config.standard
  inp := Inputs.idle
  pending := []
  outValid := false
  out := Outputs.free 0
  resetSeen := true
  draws := 1

/-! The state's updates, one for each field that a step writes. -/

/-- Set the input ports. -/
def State.setInp (s : State) (x : Inputs) : State := { s with inp := x }
/-- Set what the host will present. -/
def State.setPending (s : State) (p : List Inputs) : State := { s with pending := p }
/-- Set `out_valid`. -/
def State.setOutValid (s : State) (b : Bool) : State := { s with outValid := b }
/-- Set the outputs. -/
def State.setOut (s : State) (o : Outputs) : State := { s with out := o }
/-- Set whether a reset edge has come. -/
def State.setResetSeen (s : State) (b : Bool) : State := { s with resetSeen := b }
/-- Set the count of draws. -/
def State.setDraws (s : State) (n : Nat) : State := { s with draws := n }

end Sys2Proof.Machine
end

