-- ==== Sys2Proof/Machine/Ops.lean ====
section
/-! DEFINITION. The shared operations of the machine: the always-driven outputs (R11), returning `Ok` and returning `Fail`
(R11, R92 to R94), the three kinds of edge (R21, R22, R107) and presenting the inputs. There is no memory operation and no
trap to take or to return from: the decoder has neither (R25, R97); `returnFail` is all a failing word does (R92). -/

namespace Sys2Proof.Machine

/-- The outputs that are driven for every word, whatever `ok` (R11): the raw fields, `simm`, `btarget`, `jtarget`. The five
outputs that depend on the result are those of no result here; `okOutputs` and `failOutputs` set them. -/
def drivenOutputs (c : Config) (x : Inputs) : Outputs where
  ok := false
  err := 0
  mnem := 0
  form := 0
  opcode := opcodeOf x.word
  rs := rsOf x.word
  rt := rtOf x.word
  rd := rdOf x.word
  shamt := shamtOf x.word
  funct := functOf x.word
  imm16 := imm16Of x.word
  addr26 := addr26Of x.word
  simm := to32 (sext16 (imm16Of x.word))
  btarget := branchTarget c x.pc (imm16Of x.word)
  jtarget := jumpTarget (addr26Of x.word)
  text := []

/-- The outputs of `Ok(m, form, operands)` (R11). -/
def okOutputs (c : Config) (x : Inputs) (d : DecodedInstruction) : Outputs :=
  { drivenOutputs c x with
    ok := true
    mnem := mnemonicId d.mnemonic
    form := formCode d.form
    text := renderOk d }

/-- The outputs of `Fail(kind)`: the kind on `err`, `mnem` and `form` 0, the text "error", the raw fields driven as for any
word (R11, R92 to R94). -/
def failOutputs (c : Config) (x : Inputs) (k : FailKind) : Outputs :=
  { drivenOutputs c x with err := failCode k, text := renderFail }

/-- An edge with `rst = 0` writes `b` to `out_valid` (R21, R22). Until a reset edge has come the value is unspecified (R107,
R108, I3): a fresh free value, whatever `b` is (log entry 16). -/
def writeOutValid (b : Bool) (s : State) : State :=
  if s.resetSeen then s.setOutValid b else (s.setOutValid (Config.freeOutValid s.draws)).setDraws (s.draws + 1)

/-- Drive the outputs. In the pipelined variant they load into the output registers and `out_valid <- 1` (R21); the
combinational variant has no `out_valid` (log entry 7). -/
def loadOutputs (o : Outputs) (s : State) : State :=
  if s.cfg.pipelined then writeOutValid true (s.setOut o) else s.setOut o

/-- `return Ok(m, form, operands)` for the word at the input ports. Every meaning is this, with its rule's operands. -/
def returnOk (d : DecodedInstruction) (s : State) : Host.Outcome State Fault Refusal :=
  .next (loadOutputs (okOutputs s.cfg s.inp d) s)

/-- `return Fail(kind)` for the word at the input ports: a value, never a trap, so a next state (R92, R96). -/
def returnFail (k : FailKind) (s : State) : Host.Outcome State Fault Refusal :=
  .next (loadOutputs (failOutputs s.cfg s.inp k) s)

/-- The input ports take what the host presents next; with nothing listed they keep their values (log entry 3). -/
def presentInputs (s : State) : State :=
  match s.pending with
  | [] => s
  | x :: rest => (s.setInp x).setPending rest

/-- What a step does with the inputs it finds. -/
inductive StepAction where
  /-- Decode the word and drive the outputs. -/
  | load
  /-- A reset edge (R107). -/
  | resetEdge
  /-- An edge with nothing presented (R22). -/
  | idleEdge
  deriving DecidableEq, Repr

/-- The combinational variant decodes whatever its inputs hold (R17); at an edge of the pipelined one `rst` has priority
over `in_valid` (R21, R107). -/
def stepAction (c : Config) (x : Inputs) : StepAction :=
  if c.pipelined then
    if x.rst then .resetEdge else if x.inValid then .load else .idleEdge
  else .load

/-- A reset edge: `out_valid <- 0`, and it can be relied on from then on (R107, R108); the payload is then an arbitrary value
(R107, I2; log entry 5). -/
def resetEdge (s : State) : State :=
  (((s.setOutValid false).setOut (Outputs.free s.draws)).setResetSeen true).setDraws (s.draws + 1)

/-- An edge with `in_valid = 0`: `out_valid <- 0` and the payload keeps its value (R22). -/
def idleEdge (s : State) : State := writeOutValid false s

/-- Present a word next, ahead of what is pending, with the address the `pc` port has now, as a valid input and no reset. -/
def presentWord (s : State) (w : Word) : State :=
  s.setPending ({ word := w, pc := s.inp.pc, rst := false, inValid := true } :: s.pending)

end Sys2Proof.Machine
end

