-- ==== Sys2Proof/Machine/Branch.lean ====
section
/-! DEFINITION. PC-relative branch family, opcodes 4 to 7 (spec/45_branch.md R83 to R86): the only meanings that read the `pc` port
(R18); `rt` is printed before `rs` (I6). -/

namespace Sys2Proof.Machine

/-- beq (R83). -/
def execBeq (rt rs : RegIndex) (imm16 : BitVec 16) (s : State) : Host.Outcome State Fault Refusal :=
  returnOk { mnemonic := .beq, form := .branch, operands := [reg rt, reg rs, hex (branchTarget s.cfg s.inp.pc imm16).toNat] } s

/-- bne (R84). -/
def execBne (rt rs : RegIndex) (imm16 : BitVec 16) (s : State) : Host.Outcome State Fault Refusal :=
  returnOk { mnemonic := .bne, form := .branch, operands := [reg rt, reg rs, hex (branchTarget s.cfg s.inp.pc imm16).toNat] } s

/-- blez (R85). -/
def execBlez (rt rs : RegIndex) (imm16 : BitVec 16) (s : State) : Host.Outcome State Fault Refusal :=
  returnOk { mnemonic := .blez, form := .branch, operands := [reg rt, reg rs, hex (branchTarget s.cfg s.inp.pc imm16).toNat] } s

/-- bgtz (R86). -/
def execBgtz (rt rs : RegIndex) (imm16 : BitVec 16) (s : State) : Host.Outcome State Fault Refusal :=
  returnOk { mnemonic := .bgtz, form := .branch, operands := [reg rt, reg rs, hex (branchTarget s.cfg s.inp.pc imm16).toNat] } s

end Sys2Proof.Machine
end

