-- ==== Sys2Proof/Machine/ImmArith.lean ====
section
/-! DEFINITION. Immediate arithmetic and logical family, opcodes 8, 10, 12, 13 and 14 (spec/46_imm_arith.md R87 to R91): the immediate is
sign-extended for every one of them (I9, C7). -/

namespace Sys2Proof.Machine

/-- addi (R87). -/
def execAddi (rt rs : RegIndex) (imm16 : BitVec 16) (s : State) : Host.Outcome State Fault Refusal :=
  returnOk { mnemonic := .addi, form := .rtRsSimm, operands := [reg rt, reg rs, shex (sext16 imm16)] } s

/-- slti (R88). -/
def execSlti (rt rs : RegIndex) (imm16 : BitVec 16) (s : State) : Host.Outcome State Fault Refusal :=
  returnOk { mnemonic := .slti, form := .rtRsSimm, operands := [reg rt, reg rs, shex (sext16 imm16)] } s

/-- andi (R89). -/
def execAndi (rt rs : RegIndex) (imm16 : BitVec 16) (s : State) : Host.Outcome State Fault Refusal :=
  returnOk { mnemonic := .andi, form := .rtRsSimm, operands := [reg rt, reg rs, shex (sext16 imm16)] } s

/-- ori (R90). -/
def execOri (rt rs : RegIndex) (imm16 : BitVec 16) (s : State) : Host.Outcome State Fault Refusal :=
  returnOk { mnemonic := .ori, form := .rtRsSimm, operands := [reg rt, reg rs, shex (sext16 imm16)] } s

/-- xori (R91). -/
def execXori (rt rs : RegIndex) (imm16 : BitVec 16) (s : State) : Host.Outcome State Fault Refusal :=
  returnOk { mnemonic := .xori, form := .rtRsSimm, operands := [reg rt, reg rs, shex (sext16 imm16)] } s

end Sys2Proof.Machine
end

