-- ==== Sys2Proof/Machine/Jump.lean ====
section
/-! DEFINITION. Jump family, opcodes 2 and 3 (spec/42_jump.md R76, R77): the target of R44, with no bits of pc (I5). -/

namespace Sys2Proof.Machine

/-- j (R76). -/
def execJ (addr26 : BitVec 26) (s : State) : Host.Outcome State Fault Refusal :=
  returnOk { mnemonic := .j, form := .jump, operands := [hex (jumpTarget addr26).toNat] } s

/-- jal (R77). -/
def execJal (addr26 : BitVec 26) (s : State) : Host.Outcome State Fault Refusal :=
  returnOk { mnemonic := .jal, form := .jump, operands := [hex (jumpTarget addr26).toNat] } s

end Sys2Proof.Machine
end

