-- ==== Sys2Proof/Machine/LoadStore.lean ====
section
/-! DEFINITION. Load/store family, opcodes 32, 35, 40 and 43 (spec/44_load_store.md R79 to R82). No address is formed and no memory
accessed (R28). -/

namespace Sys2Proof.Machine

/-- lb (R79). -/
def execLb (rt rs : RegIndex) (imm16 : BitVec 16) (s : State) : Host.Outcome State Fault Refusal :=
  returnOk { mnemonic := .lb, form := .mem, operands := [reg rt, memOperand rs imm16] } s

/-- lw (R80). -/
def execLw (rt rs : RegIndex) (imm16 : BitVec 16) (s : State) : Host.Outcome State Fault Refusal :=
  returnOk { mnemonic := .lw, form := .mem, operands := [reg rt, memOperand rs imm16] } s

/-- sb (R81). -/
def execSb (rt rs : RegIndex) (imm16 : BitVec 16) (s : State) : Host.Outcome State Fault Refusal :=
  returnOk { mnemonic := .sb, form := .mem, operands := [reg rt, memOperand rs imm16] } s

/-- sw (R82). -/
def execSw (rt rs : RegIndex) (imm16 : BitVec 16) (s : State) : Host.Outcome State Fault Refusal :=
  returnOk { mnemonic := .sw, form := .mem, operands := [reg rt, memOperand rs imm16] } s

end Sys2Proof.Machine
end

