-- ==== Sys2Proof/Machine/Lui.lean ====
section
/-! DEFINITION. Load-upper-immediate, opcode 15 (spec/43_lui.md R78): one operand string (C5, C9). -/

namespace Sys2Proof.Machine

/-- lui (R78). -/
def execLui (rt : RegIndex) (imm16 : BitVec 16) (s : State) : Host.Outcome State Fault Refusal :=
  returnOk { mnemonic := .lui, form := .lui, operands := [reg rt ++ hex imm16.toNat] } s

end Sys2Proof.Machine
end

