-- ==== Sys2Proof/Machine/RegImm.lean ====
section
/-! DEFINITION. Register-immediate branch family, opcode 1 (spec/41_regimm.md R73, R74): the raw field in hex (R45, I4). -/

namespace Sys2Proof.Machine

/-- bltz (R73). -/
def execBltz (rs : RegIndex) (imm16 : BitVec 16) (s : State) : Host.Outcome State Fault Refusal :=
  returnOk { mnemonic := .bltz, form := .regImm, operands := [reg rs, hex imm16.toNat] } s

/-- bgez (R74). -/
def execBgez (rs : RegIndex) (imm16 : BitVec 16) (s : State) : Host.Outcome State Fault Refusal :=
  returnOk { mnemonic := .bgez, form := .regImm, operands := [reg rs, hex imm16.toNat] } s

end Sys2Proof.Machine
end

