-- ==== Sys2Proof/Machine/RegReg.lean ====
section
/-! DEFINITION. Register-register family, opcode 0 (spec/40_regreg.md R53 to R72). -/

namespace Sys2Proof.Machine

/-- sll (R53). -/
def execSll (rd rt : RegIndex) (shamt : BitVec 5) (s : State) : Host.Outcome State Fault Refusal :=
  returnOk { mnemonic := .sll, form := .shift, operands := [reg rd, reg rt, dec shamt.toNat] } s

/-- srl (R54). -/
def execSrl (rd rt : RegIndex) (shamt : BitVec 5) (s : State) : Host.Outcome State Fault Refusal :=
  returnOk { mnemonic := .srl, form := .shift, operands := [reg rd, reg rt, dec shamt.toNat] } s

/-- sra (R55). -/
def execSra (rd rt : RegIndex) (shamt : BitVec 5) (s : State) : Host.Outcome State Fault Refusal :=
  returnOk { mnemonic := .sra, form := .shift, operands := [reg rd, reg rt, dec shamt.toNat] } s

/-- jr (R56). -/
def execJr (rs : RegIndex) (s : State) : Host.Outcome State Fault Refusal :=
  returnOk { mnemonic := .jr, form := .rs, operands := [reg rs] } s

/-- jalr (R57, I8). -/
def execJalr (rs : RegIndex) (s : State) : Host.Outcome State Fault Refusal :=
  returnOk { mnemonic := .jalr, form := .rs, operands := [reg rs] } s

/-- syscall (R58, R98). -/
def execSyscall (s : State) : Host.Outcome State Fault Refusal :=
  returnOk { mnemonic := .syscall, form := .none, operands := [] } s

/-- break (R59, R98). -/
def execBreak (s : State) : Host.Outcome State Fault Refusal :=
  returnOk { mnemonic := .break_, form := .none, operands := [] } s

/-- mfhi (R60). -/
def execMfhi (rd : RegIndex) (s : State) : Host.Outcome State Fault Refusal :=
  returnOk { mnemonic := .mfhi, form := .rd, operands := [reg rd] } s

/-- mthi (R61, I7). -/
def execMthi (rd : RegIndex) (s : State) : Host.Outcome State Fault Refusal :=
  returnOk { mnemonic := .mthi, form := .rd, operands := [reg rd] } s

/-- mflo (R62). -/
def execMflo (rd : RegIndex) (s : State) : Host.Outcome State Fault Refusal :=
  returnOk { mnemonic := .mflo, form := .rd, operands := [reg rd] } s

/-- mtlo (R63, I7). -/
def execMtlo (rd : RegIndex) (s : State) : Host.Outcome State Fault Refusal :=
  returnOk { mnemonic := .mtlo, form := .rd, operands := [reg rd] } s

/-- mult (R64). -/
def execMult (rs rt : RegIndex) (s : State) : Host.Outcome State Fault Refusal :=
  returnOk { mnemonic := .mult, form := .rsRt, operands := [reg rs, reg rt] } s

/-- div (R65). -/
def execDiv (rs rt : RegIndex) (s : State) : Host.Outcome State Fault Refusal :=
  returnOk { mnemonic := .div, form := .rsRt, operands := [reg rs, reg rt] } s

/-- add (R66). -/
def execAdd (rd rs rt : RegIndex) (s : State) : Host.Outcome State Fault Refusal :=
  returnOk { mnemonic := .add, form := .rdRsRt, operands := [reg rd, reg rs, reg rt] } s

/-- sub (R67). -/
def execSub (rd rs rt : RegIndex) (s : State) : Host.Outcome State Fault Refusal :=
  returnOk { mnemonic := .sub, form := .rdRsRt, operands := [reg rd, reg rs, reg rt] } s

/-- and (R68). -/
def execAnd (rd rs rt : RegIndex) (s : State) : Host.Outcome State Fault Refusal :=
  returnOk { mnemonic := .and, form := .rdRsRt, operands := [reg rd, reg rs, reg rt] } s

/-- or (R69). -/
def execOr (rd rs rt : RegIndex) (s : State) : Host.Outcome State Fault Refusal :=
  returnOk { mnemonic := .or, form := .rdRsRt, operands := [reg rd, reg rs, reg rt] } s

/-- xor (R70). -/
def execXor (rd rs rt : RegIndex) (s : State) : Host.Outcome State Fault Refusal :=
  returnOk { mnemonic := .xor, form := .rdRsRt, operands := [reg rd, reg rs, reg rt] } s

/-- nor (R71). -/
def execNor (rd rs rt : RegIndex) (s : State) : Host.Outcome State Fault Refusal :=
  returnOk { mnemonic := .nor, form := .rdRsRt, operands := [reg rd, reg rs, reg rt] } s

/-- slt (R72). -/
def execSlt (rd rs rt : RegIndex) (s : State) : Host.Outcome State Fault Refusal :=
  returnOk { mnemonic := .slt, form := .rdRsRt, operands := [reg rd, reg rs, reg rt] } s

end Sys2Proof.Machine
end

