-- ==== Sys2Proof/Machine/Dispatch.lean ====
section
/-! DEFINITION. The dispatch: one arm per constructor of Instr, each one direct call of its meaning. -/

namespace Sys2Proof.Machine

/-- What the hardware does with a recognised instruction whose word is at the input ports. -/
def exec (i : Instr) (s : State) : Host.Outcome State Fault Refusal :=
  match i with
    | .sll rd rt shamt => Sys2Proof.Machine.execSll rd rt shamt s
    | .srl rd rt shamt => Sys2Proof.Machine.execSrl rd rt shamt s
    | .sra rd rt shamt => Sys2Proof.Machine.execSra rd rt shamt s
    | .jr rs => Sys2Proof.Machine.execJr rs s
    | .jalr rs => Sys2Proof.Machine.execJalr rs s
    | .syscall => Sys2Proof.Machine.execSyscall s
    | .break_ => Sys2Proof.Machine.execBreak s
    | .mfhi rd => Sys2Proof.Machine.execMfhi rd s
    | .mthi rd => Sys2Proof.Machine.execMthi rd s
    | .mflo rd => Sys2Proof.Machine.execMflo rd s
    | .mtlo rd => Sys2Proof.Machine.execMtlo rd s
    | .mult rs rt => Sys2Proof.Machine.execMult rs rt s
    | .div rs rt => Sys2Proof.Machine.execDiv rs rt s
    | .add rd rs rt => Sys2Proof.Machine.execAdd rd rs rt s
    | .sub rd rs rt => Sys2Proof.Machine.execSub rd rs rt s
    | .and rd rs rt => Sys2Proof.Machine.execAnd rd rs rt s
    | .or rd rs rt => Sys2Proof.Machine.execOr rd rs rt s
    | .xor rd rs rt => Sys2Proof.Machine.execXor rd rs rt s
    | .nor rd rs rt => Sys2Proof.Machine.execNor rd rs rt s
    | .slt rd rs rt => Sys2Proof.Machine.execSlt rd rs rt s
    | .bltz rs imm16 => Sys2Proof.Machine.execBltz rs imm16 s
    | .bgez rs imm16 => Sys2Proof.Machine.execBgez rs imm16 s
    | .j addr26 => Sys2Proof.Machine.execJ addr26 s
    | .jal addr26 => Sys2Proof.Machine.execJal addr26 s
    | .lui rt imm16 => Sys2Proof.Machine.execLui rt imm16 s
    | .lb rt rs imm16 => Sys2Proof.Machine.execLb rt rs imm16 s
    | .lw rt rs imm16 => Sys2Proof.Machine.execLw rt rs imm16 s
    | .sb rt rs imm16 => Sys2Proof.Machine.execSb rt rs imm16 s
    | .sw rt rs imm16 => Sys2Proof.Machine.execSw rt rs imm16 s
    | .beq rt rs imm16 => Sys2Proof.Machine.execBeq rt rs imm16 s
    | .bne rt rs imm16 => Sys2Proof.Machine.execBne rt rs imm16 s
    | .blez rt rs imm16 => Sys2Proof.Machine.execBlez rt rs imm16 s
    | .bgtz rt rs imm16 => Sys2Proof.Machine.execBgtz rt rs imm16 s
    | .addi rt rs imm16 => Sys2Proof.Machine.execAddi rt rs imm16 s
    | .slti rt rs imm16 => Sys2Proof.Machine.execSlti rt rs imm16 s
    | .andi rt rs imm16 => Sys2Proof.Machine.execAndi rt rs imm16 s
    | .ori rt rs imm16 => Sys2Proof.Machine.execOri rt rs imm16 s
    | .xori rt rs imm16 => Sys2Proof.Machine.execXori rt rs imm16 s

end Sys2Proof.Machine
end

