-- ==== Sys2Proof/Machine/Step.lean ====
section
/-! DEFINITION. One step: the host's next inputs are presented, and then the outputs settle (combinational variant, R17) or
one rising edge of `clk` happens (pipelined variant, R21). -/

namespace Sys2Proof.Machine

/-- Decode the word at the input ports and drive the result: an instruction's meaning, or the failure as a value (R1, R92). -/
def decodeInputs (s : State) : Host.Outcome State Fault Refusal :=
  match decode s.inp.word with
  | .ok i => exec i s
  | .fail k => returnFail k s

/-- What a step does once its inputs are at the ports. -/
def actOnInputs (s : State) : Host.Outcome State Fault Refusal :=
  match stepAction s.cfg s.inp with
  | .load => decodeInputs s
  | .resetEdge => .next (resetEdge s)
  | .idleEdge => .next (idleEdge s)

/-- One step (log entry 2). -/
def step (s : State) : Host.Outcome State Fault Refusal := actOnInputs (presentInputs s)

/-- The state whose next step decodes the table row's bits `w`: the word is what the host presents next (R101; log
entry 13). -/
def State.withFetchWord (s : State) (nbits w : Nat) : State := presentWord s (BitVec.ofNat 32 (w % 2 ^ nbits))

end Sys2Proof.Machine
end

