-- ==== Sys2Proof/WellFormed.lean ====
section
/-! DEFINITION. What makes a decoded instruction well formed: the checks of R48 on `Ok(mnemonic, form, operands)`. The fields
of an `Instr` are bit vectors of exactly the widths of R34 to R36, so no ill-formed `Instr` can be written and every term
of that type is a well-formed instruction; what can be ill formed is the rendered form of one. -/

namespace Sys2Proof

/-- How many operand strings a form has (R48). -/
def Form.operandCount : Form → Nat
  | .none => 0
  | .rs | .rd | .jump | .lui => 1
  | .rsRt | .regImm | .mem => 2
  | .shift | .rdRsRt | .branch | .rtRsSimm => 3

/-- The form is the one R48 gives the mnemonic. -/
def DecodedInstruction.formFits (d : DecodedInstruction) : Bool := d.form == formOf d.mnemonic

/-- There are as many operand strings as the form has (R48). -/
def DecodedInstruction.countFits (d : DecodedInstruction) : Bool := d.operands.length == d.form.operandCount

/-- No operand string is empty, and none holds a space or a comma, which R6 uses to separate them. -/
def DecodedInstruction.operandsClean (d : DecodedInstruction) : Bool :=
  d.operands.all fun o => !o.isEmpty && o.all fun c => c != ' ' && c != ','

/-- A decoded instruction as R48 has it. -/
def DecodedInstruction.wellFormed (d : DecodedInstruction) : Bool := d.formFits && d.countFits && d.operandsClean

end Sys2Proof
end

