-- ==== Sys2Proof/Safety.lean ====
section
/-! DEFINITION. The terms claims are stated in: when a consumer may read the outputs (R22), when outputs agree with each other
and with their text (R11), what a decode leaves unchanged, and the whole decoder as the one block of pseudocode the spec
gives (R52), written here on natural numbers apart from the model's own dispatch. -/

namespace Sys2Proof.Safety

open Sys2Proof.Machine

/-! ### Reading the outputs -/

/-- The inputs the next step acts on. -/
def nextInputs (s : State) : Inputs := s.pending.head?.getD s.inp

/-- The next step decodes: always in the combinational variant (R17), and at an edge with `rst = 0` and `in_valid = 1` in the
pipelined one (R21). -/
def Decodes (s : State) : Prop :=
  s.cfg.pipelined = true → (nextInputs s).rst = false ∧ (nextInputs s).inValid = true

/-- The pipelined variant before its first reset edge, where `out_valid` is unspecified and cannot be relied on (R107, R108). -/
abbrev Unreset (s : State) : Prop := s.cfg.pipelined = true ∧ s.resetSeen = false

/-- A consumer may read the outputs: always in the combinational variant, only while `out_valid = 1` in the pipelined one
(R22), once a reset edge has come and `out_valid` can be relied on (R108). -/
def Readable (s : State) : Prop := s.cfg.pipelined = false ∨ (s.resetSeen = true ∧ s.outValid = true)

/-- The always-driven outputs are those of the inputs `x` (R11): raw fields by R37, `simm` by R38, `btarget` by R43,
`jtarget` by R44. -/
def DrivenBy (c : Config) (x : Inputs) (o : Outputs) : Prop :=
  o.opcode = opcodeOf x.word ∧ o.rs = rsOf x.word ∧ o.rt = rtOf x.word ∧ o.rd = rdOf x.word ∧
  o.shamt = shamtOf x.word ∧ o.funct = functOf x.word ∧ o.imm16 = imm16Of x.word ∧ o.addr26 = addr26Of x.word ∧
  o.simm = to32 (sext16 (imm16Of x.word)) ∧ o.btarget = branchTarget c x.pc (imm16Of x.word) ∧
  o.jtarget = jumpTarget (addr26Of x.word)

/-- Nothing but the outputs and `out_valid` differs: the parameters, the input ports, `pc` among them, what is pending and
whether a reset edge has come are as before (R16, R18). So is the count of draws, but that before the first reset edge
one is drawn, for `out_valid` (log entry 16). -/
def OnlyOutputsChange (s t : State) : Prop :=
  t.cfg = s.cfg ∧ t.inp = s.inp ∧ t.pending = s.pending ∧ t.resetSeen = s.resetSeen ∧
  t.draws = s.draws + if Unreset s then 1 else 0

/-- `out_valid` after a decode: 1 in the pipelined variant once a reset edge has come (R21, R108), nothing said of it before
(R107), and as before in the combinational variant (log entry 7). -/
def ValidAfterDecode (s t : State) : Prop :=
  (s.cfg.pipelined = true → s.resetSeen = true → t.outValid = true) ∧ (s.cfg.pipelined = false → t.outValid = s.outValid)

/-- `t` is `s` after a decode that gave `Ok` with mnemonic id `m`, form code `f` and this text, and nothing else. -/
def GivesOk (s t : State) (m : BitVec 6) (f : BitVec 4) (text : Text) : Prop :=
  t.out.ok = true ∧ t.out.err = 0 ∧ t.out.mnem = m ∧ t.out.form = f ∧ t.out.text = text ∧
  DrivenBy s.cfg s.inp t.out ∧ OnlyOutputsChange s t ∧ ValidAfterDecode s t

/-- Running `i` answers a next state with this result, from every state. -/
def AlwaysGives (i : Instr) (m : BitVec 6) (f : BitVec 4) (text : State → Text) : Prop :=
  ∀ s : State, ∃ t, exec i s = .next t ∧ GivesOk s t m f (text s)

/-! ### Agreement of the outputs (R11) -/

/-- The 38 spellings in the order of their ids (R9, R24). -/
def spellings : List Text :=
  ["sll".toList, "srl".toList, "sra".toList, "jr".toList, "jalr".toList, "syscall".toList, "break".toList, "mfhi".toList,
    "mthi".toList, "mflo".toList, "mtlo".toList, "mult".toList, "div".toList, "add".toList, "sub".toList, "and".toList] ++
  ["or".toList, "xor".toList, "nor".toList, "slt".toList, "bltz".toList, "bgez".toList, "j".toList, "jal".toList,
    "lui".toList, "lb".toList, "lw".toList, "sb".toList, "sw".toList, "beq".toList, "bne".toList, "blez".toList] ++
  ["bgtz".toList, "addi".toList, "slti".toList, "andi".toList, "ori".toList, "xori".toList]

/-- A mnemonic and its operands as one line: one space after the mnemonic, operands joined by commas (R6, R7). -/
def line (name : Text) (operands : List Text) : Text :=
  if operands.isEmpty then name else name ++ ' ' :: List.intercalate [','] operands

/-- The operand strings of a form code, from the field outputs alone (R11, R48). -/
def operandsOf (o : Outputs) : List Text :=
  match o.form.toNat with
  | 0 => [reg o.rd, reg o.rt, dec o.shamt.toNat]
  | 1 => [reg o.rs]
  | 2 => []
  | 3 => [reg o.rd]
  | 4 => [reg o.rs, reg o.rt]
  | 5 => [reg o.rd, reg o.rs, reg o.rt]
  | 6 => [reg o.rs, hex o.imm16.toNat]
  | 7 => [hex o.jtarget.toNat]
  | 8 => [reg o.rt ++ hex o.imm16.toNat]
  | 9 => [reg o.rt, (if o.imm16.toNat < 0x8000 then dec o.imm16.toNat else hex o.imm16.toNat) ++ "(".toList ++ reg o.rs ++ ")".toList]
  | 10 => [reg o.rt, reg o.rs, hex o.btarget.toNat]
  | 11 => [reg o.rt, reg o.rs, shex o.simm.toInt]
  | _ => []

/-- The text rendered from the structured outputs (R11: rendering `(ok, err, mnem, form, fields)` gives `text`). -/
def renderedText (o : Outputs) : Text :=
  if o.ok then line (spellings.getD o.mnem.toNat []) (operandsOf o) else "error".toList

/-- The outputs agree: the codes with `ok` (R11, R93, R94), the fields with each other (R34 to R36, R38, R44), and the text
with all of them (R11). -/
structure Coherent (o : Outputs) : Prop where
  /-- On success `err` is 0 and the ids are ones that exist (R24, R48). -/
  success : o.ok = true → o.err = 0 ∧ o.mnem.toNat < 38 ∧ o.form.toNat < 12
  /-- On a failure there is a kind, and `mnem` and `form` are 0 (R94). -/
  failure : o.ok = false → o.err ≠ 0 ∧ o.mnem = 0 ∧ o.form = 0
  /-- The 26-bit field is the two registers and the immediate. -/
  addr : o.addr26 = o.rs ++ o.rt ++ o.imm16
  /-- The immediate is the three fields below the registers. -/
  imm : o.imm16 = o.rd ++ o.shamt ++ o.funct
  /-- `simm` is the sign-extended immediate (R38). -/
  simm : o.simm = o.imm16.signExtend 32
  /-- `jtarget` is four times the 26-bit field (R44). -/
  jump : o.jtarget.toNat = 4 * o.addr26.toNat
  /-- The text is the one the other outputs render to (R11). -/
  text : o.text = renderedText o

/-- The value a digit string denotes in base `b`, by position in `0123456789abcdef` (R2, R4). -/
def valueOf (b : Nat) (ds : Text) : Nat := ds.foldl (fun v c => v * b + "0123456789abcdef".toList.idxOf c) 0

/-- `ds` is the base-`b` numeral of `n`: lowercase digits below `b`, no leading zero but for 0 itself (R2, R4). -/
structure Numeral (b n : Nat) (ds : Text) : Prop where
  /-- There is a digit. -/
  nonempty : ds ≠ []
  /-- Every character is a digit of the base. -/
  digit : ∀ c ∈ ds, c ∈ "0123456789abcdef".toList.take b
  /-- There is no leading zero, but 0 itself is the one digit `0`. -/
  canonical : ds.head? = some '0' → ds = ['0']
  /-- It denotes `n`. -/
  value : valueOf b ds = n

/-- A printable ASCII character (R11, D20). -/
def Printable (c : Char) : Prop := 0x20 ≤ c.toNat ∧ c.toNat ≤ 0x7e

/-- What every step keeps: a text within TEXT_MAX, and agreement of the outputs whenever they may be read. -/
structure Inv (s : State) : Prop where
  /-- The text port holds at most 27 characters (R11). -/
  bounded : s.out.text.length ≤ Config.textMax
  /-- What a consumer may read agrees with itself. -/
  coherent : Readable s → Coherent s.out

/-! ### The rows of spec/opcode_table.json -/

/-- A row's "match". -/
def rowMatch : Mnemonic → Word
  | .sll => 0x00000000
  | .srl => 0x00000002
  | .sra => 0x00000003
  | .jr => 0x00000008
  | .jalr => 0x00000009
  | .syscall => 0x0000000c
  | .break_ => 0x0000000d
  | .mfhi => 0x00000010
  | .mthi => 0x00000011
  | .mflo => 0x00000012
  | .mtlo => 0x00000013
  | .mult => 0x00000018
  | .div => 0x0000001a
  | .add => 0x00000020
  | .sub => 0x00000022
  | .and => 0x00000024
  | .or => 0x00000025
  | .xor => 0x00000026
  | .nor => 0x00000027
  | .slt => 0x0000002a
  | .bltz => 0x04000000
  | .bgez => 0x04010000
  | .j => 0x08000000
  | .jal => 0x0c000000
  | .lui => 0x3c000000
  | .lb => 0x80000000
  | .lw => 0x8c000000
  | .sb => 0xa0000000
  | .sw => 0xac000000
  | .beq => 0x10000000
  | .bne => 0x14000000
  | .blez => 0x18000000
  | .bgtz => 0x1c000000
  | .addi => 0x20000000
  | .slti => 0x28000000
  | .andi => 0x30000000
  | .ori => 0x34000000
  | .xori => 0x38000000

/-- A row's "mask", which depends on the family alone. -/
def rowMask (m : Mnemonic) : Word :=
  match formOf m with
  | .shift | .rs | .none | .rd | .rsRt | .rdRsRt => 0xfc00003f
  | .regImm => 0xfc1f0000
  | .jump | .lui | .mem | .branch | .rtRsSimm => 0xfc000000

/-- The bits of a word that dispatch or rendering reads, in words of a form (R42, R48); every other bit is ignored. -/
def readBits : Form → Word
  | .shift => 0xfc1fffff
  | .rs => 0xffe0003f
  | .none => 0xfc00003f
  | .rd => 0xfc00f83f
  | .rsRt => 0xffff003f
  | .rdRsRt => 0xfffff83f
  | .lui => 0xfc1fffff
  | .regImm | .jump | .mem | .branch | .rtRsSimm => 0xffffffff

/-- The opcodes absent from the OpcodeTable (R12 lists them as 46 values). -/
def absentOpcode (n : Nat) : Prop :=
  n = 9 ∨ n = 11 ∨ (16 ≤ n ∧ n ≤ 31) ∨ n = 33 ∨ n = 34 ∨ (36 ≤ n ∧ n ≤ 39) ∨ n = 41 ∨ n = 42 ∨ (44 ≤ n ∧ n ≤ 63)

/-- The function codes absent from the FunctionCodeTable (spec/40_regreg.md "Absent function codes", 44 values). -/
def absentFunct (n : Nat) : Prop :=
  n = 1 ∨ (4 ≤ n ∧ n ≤ 7) ∨ n = 10 ∨ n = 11 ∨ n = 14 ∨ n = 15 ∨ (20 ≤ n ∧ n ≤ 23) ∨ n = 25 ∨ (27 ≤ n ∧ n ≤ 31) ∨
  n = 33 ∨ n = 35 ∨ n = 40 ∨ n = 41 ∨ (43 ≤ n ∧ n ≤ 63)

/-! ### The whole decoder as pseudocode (R52) -/

/-- `v[hi:lo]` (spec/00_scope.md section 5). -/
def slice (v hi lo : Nat) : Nat := (v >>> lo) % 2 ^ (hi - lo + 1)

/-- `sext_16` of a number below 2^16 (spec/00_scope.md section 5). -/
def signed16 (v : Nat) : Int := if v < 2 ^ 15 then v else (v : Int) - 2 ^ 16

/-- A result of R52. -/
inductive Result where
  /-- `Ok(m, form, operands)`, with the form's code. -/
  | ok (name : Text) (form : Nat) (operands : List Text)
  /-- `Fail(kind)`, with the kind's code. -/
  | fail (code : Nat)
  deriving DecidableEq, Repr

/-- FunctionCodeTable of R52. -/
def functNames : List (Nat × Text) :=
  [(0, "sll".toList), (2, "srl".toList), (3, "sra".toList), (8, "jr".toList), (9, "jalr".toList), (12, "syscall".toList),
    (13, "break".toList), (16, "mfhi".toList), (17, "mthi".toList), (18, "mflo".toList), (19, "mtlo".toList)] ++
  [(24, "mult".toList), (26, "div".toList), (32, "add".toList), (34, "sub".toList), (36, "and".toList), (37, "or".toList),
    (38, "xor".toList), (39, "nor".toList), (42, "slt".toList)]

/-- The mnemonics of OpcodeTable that R52 reads. -/
def opcodeNames : List (Nat × Text) :=
  [(2, "j".toList), (3, "jal".toList), (4, "beq".toList), (5, "bne".toList), (6, "blez".toList), (7, "bgtz".toList),
    (8, "addi".toList), (10, "slti".toList), (12, "andi".toList), (13, "ori".toList), (14, "xori".toList)] ++
  [(15, "lui".toList), (32, "lb".toList), (35, "lw".toList), (40, "sb".toList), (43, "sw".toList)]

/-- `decode(word, pc)` as R52 writes it. -/
def decodeR52 (branchOffsetSigned : Bool) (word pc : Nat) : Result :=
  let opcode := slice word 31 26
  let rs := registerNameTable.getD (slice word 25 21) []
  let rtIndex := slice word 20 16
  let rt := registerNameTable.getD rtIndex []
  let rd := registerNameTable.getD (slice word 15 11) []
  let shamt := slice word 10 6
  let funct := slice word 5 0
  let imm16 := slice word 15 0
  let addr26 := slice word 25 0
  let m := (opcodeNames.lookup opcode).getD []
  if opcode = 0 then
    match functNames.lookup funct with
    | none => .fail 2
    | some m =>
      if funct ∈ [0, 2, 3] then .ok m 0 [rd, rt, dec shamt]
      else if funct ∈ [8, 9] then .ok m 1 [rs]
      else if funct ∈ [12, 13] then .ok m 2 []
      else if funct ∈ [16, 17, 18, 19] then .ok m 3 [rd]
      else if funct ∈ [24, 26] then .ok m 4 [rs, rt]
      else .ok m 5 [rd, rs, rt]
  else if opcode = 1 then
    if rtIndex = 0 then .ok "bltz".toList 6 [rs, hex imm16]
    else if rtIndex = 1 then .ok "bgez".toList 6 [rs, hex imm16]
    else .fail 3
  else if opcode ∈ [2, 3] then .ok m 7 [hex (4 * addr26)]
  else if opcode = 15 then .ok m 8 [rt ++ hex imm16]
  else if opcode ∈ [32, 35, 40, 43] then
    .ok m 9 [rt, (if imm16 ≥ 0x8000 then hex imm16 else dec (signed16 imm16)) ++ "(".toList ++ rs ++ ")".toList]
  else if opcode ∈ [4, 5, 6, 7] then
    let off : Int := if branchOffsetSigned then signed16 imm16 else imm16
    .ok m 10 [rt, rs, hex (((pc : Int) + 4 + 4 * off) % 2 ^ 32).toNat]
  else if opcode ∈ [8, 10, 12, 13, 14] then .ok m 11 [rt, rs, shex (signed16 imm16)]
  else .fail 1

/-- The result outputs are those of a result of R52 (R6 to R8, R11, R24, R93, R94). -/
def Shows (o : Outputs) : Result → Prop
  | .ok name form operands =>
    o.ok = true ∧ o.err = 0 ∧ o.mnem.toNat = spellings.idxOf name ∧ o.form.toNat = form ∧ o.text = line name operands
  | .fail code => o.ok = false ∧ o.err.toNat = code ∧ o.mnem = 0 ∧ o.form = 0 ∧ o.text = "error".toList

/-- The outputs are `comb(word, pc)` of R21: R52's result, with the always-driven outputs beside it. -/
def IsCombOf (c : Config) (x : Inputs) (o : Outputs) : Prop :=
  Shows o (decodeR52 c.branchOffsetSigned x.word.toNat x.pc.toNat) ∧ DrivenBy c x o

end Sys2Proof.Safety
end

