-- ==== Sys2Proof/Certificates/Slice0/Obligations.lean ====
section
/-! DEFINITION. The statements for the provers, each a rule of the spec or a whole-machine fact that follows from its rules.
The terms they use are those of Sys2Proof/Safety.lean. -/

open Sys2Proof Sys2Proof.Machine Sys2Proof.Safety

/-- For every natural number n, hex n is "0x" followed by a nonempty string of lowercase base-16 digits, most significant
first, that denotes n and has no leading zero unless it is the single digit 0; and hex 0 is "0x0". (R2.) -/
def Obligations.HexIsTheLowercaseNumeral : Prop :=
  (∀ n : Nat, ∃ ds, hex n = "0x".toList ++ ds ∧ Numeral 16 n ds) ∧ hex 0 = "0x0".toList

/-- For every integer i: if i is not negative, shex i is the hex of its magnitude; if it is negative, it is "-" and that
hex. shex(-1) is "-0x1" and shex(-32768) is "-0x8000". Different integers have different spellings. (00_scope.md
section 6, rule R3.) -/
def Obligations.ShexSignsTheHexOfTheMagnitude : Prop :=
  (∀ i : Int, (0 ≤ i → shex i = hex i.natAbs) ∧ (i < 0 → shex i = "-".toList ++ hex i.natAbs)) ∧
  shex (-1) = "-0x1".toList ∧ shex (-32768) = "-0x8000".toList ∧ Function.Injective shex

/-- For every integer i: if i is not negative, dec i is the canonical base-10 numeral of it; if it is negative, dec i is
"-" and the numeral of its magnitude. dec 0 is "0". The decimal displacement of every immediate below 0x8000 and the
spelling of every 5-bit shift amount hold no minus sign. (R4.) -/
def Obligations.DecIsTheDecimalNumeral : Prop :=
  (∀ i : Int, (0 ≤ i → Numeral 10 i.natAbs (dec i)) ∧ (i < 0 → ∃ ds, dec i = "-".toList ++ ds ∧ Numeral 10 i.natAbs ds)) ∧
  dec 0 = "0".toList ∧ (∀ imm16 : BitVec 16, '-' ∉ displacement imm16) ∧ (∀ shamt : BitVec 5, '-' ∉ dec shamt.toNat)

/-- The RegisterNameTable has 32 entries, each beginning with "$" and holding no other "$", and read in order they are
$zero, $at, $v0, ... $ra; every 5-bit index has its entry as reg(i); different indices have different names. (R5,
R14.) -/
def Obligations.RegisterNamesAreTotalAndDistinct : Prop :=
  registerNameTable.length = 32 ∧
  registerNameTable.flatten =
    ("$zero$at$v0$v1$a0$a1$a2$a3$t0$t1$t2$t3$t4$t5$t6$t7" ++ "$s0$s1$s2$s3$s4$s5$s6$s7$t8$t9$k0$k1$gp$sp$fp$ra").toList ∧
  (∀ name ∈ registerNameTable, name.head? = some '$' ∧ '$' ∉ name.tail) ∧
  (∀ i : RegIndex, registerNameTable[i.toNat]? = some (reg i)) ∧ Function.Injective reg

/-- For every decoded instruction with at least one operand the text is the mnemonic, one space, and the operands with a
single comma between; with no operand it is the mnemonic alone; the text output of every failure is "error". (R6, R7,
R8.) -/
def Obligations.OkTextIsMnemonicSpaceOperands : Prop :=
  (∀ d : DecodedInstruction, d.operands ≠ [] →
    renderOk d = mnemonicText d.mnemonic ++ " ".toList ++ List.intercalate ",".toList d.operands) ∧
  (∀ d : DecodedInstruction, d.operands = [] → renderOk d = mnemonicText d.mnemonic) ∧
  (∀ c x k, (failOutputs c x k).text = "error".toList)

/-- For every mnemonic: its spelling stands in the list of the 38 spellings in table order at the place its id names; the
id is below 38; the spelling is lowercase ASCII letters. No two mnemonics share an id, and no two of the 38 spellings
are equal. On a failure mnem is 0. (R9, R24.) -/
def Obligations.MnemonicsAreSpelledAndNumberedInTableOrder : Prop :=
  (∀ m : Mnemonic, spellings[(mnemonicId m).toNat]? = some (mnemonicText m) ∧ (mnemonicId m).toNat < 38 ∧
    ∀ ch ∈ mnemonicText m, 'a' ≤ ch ∧ ch ≤ 'z') ∧
  Function.Injective mnemonicId ∧ spellings.Nodup ∧ spellings.length = 38 ∧ (∀ c x k, (failOutputs c x k).mnem = 0)

/-- For every word, offset and width, the field is (word >> offset) mod 2^width, and the eight fields are the slices
31:26, 25:21, 20:16, 15:11, 10:6, 5:0, 15:0 and 25:0. After every step that decodes, the eight raw field outputs are
the slices of the word presented. (R37.) -/
def Obligations.FieldsAreExtractedForEveryWord : Prop :=
  (∀ (w : Word) (offset width : Nat), (field w offset width).toNat = w.toNat / 2 ^ offset % 2 ^ width) ∧
  (∀ w : Word, (opcodeOf w).toNat = slice w.toNat 31 26 ∧ (rsOf w).toNat = slice w.toNat 25 21 ∧
    (rtOf w).toNat = slice w.toNat 20 16 ∧ (rdOf w).toNat = slice w.toNat 15 11 ∧ (shamtOf w).toNat = slice w.toNat 10 6 ∧
    (functOf w).toNat = slice w.toNat 5 0 ∧ (imm16Of w).toNat = slice w.toNat 15 0 ∧
    (addr26Of w).toNat = slice w.toNat 25 0) ∧
  (∀ s : State, Decodes s → ∃ t, step s = .next t ∧
    t.out.opcode = opcodeOf (nextInputs s).word ∧ t.out.rs = rsOf (nextInputs s).word ∧ t.out.rt = rtOf (nextInputs s).word ∧
    t.out.rd = rdOf (nextInputs s).word ∧ t.out.shamt = shamtOf (nextInputs s).word ∧
    t.out.funct = functOf (nextInputs s).word ∧ t.out.imm16 = imm16Of (nextInputs s).word ∧
    t.out.addr26 = addr26Of (nextInputs s).word)

/-- Every word is its opcode, rs, rt, rd, shamt and funct in that order from bit 31 down; it is its opcode, rs, rt and
imm16; and it is its opcode and addr26. (30_encoding.md section 1, rules R34, R35 and R36.) -/
def Obligations.LayoutsPartitionTheWord : Prop :=
  ∀ w : Word, w = opcodeOf w ++ rsOf w ++ rtOf w ++ rdOf w ++ shamtOf w ++ functOf w ∧
    w = opcodeOf w ++ rsOf w ++ rtOf w ++ imm16Of w ∧ w = opcodeOf w ++ addr26Of w

/-- For every 16-bit value: below 2^15 it is unchanged, from 2^15 on it is the value less 65536, and the result is from
-32768 to 32767. The simm output of any inputs is the immediate sign-extended to 32 bits. (R38.) -/
def Obligations.SignExtenderFollowsBitFifteen : Prop :=
  (∀ v : BitVec 16, (v.toNat < 2 ^ 15 → sext16 v = v.toNat) ∧ (2 ^ 15 ≤ v.toNat → sext16 v = (v.toNat : Int) - 65536) ∧
    -32768 ≤ sext16 v ∧ sext16 v ≤ 32767) ∧
  (∀ c x, (drivenOutputs c x).simm = (imm16Of x.word).signExtend 32)

/-- For every one of the 38 instructions with every value of its operands, decode of encode is that instruction.
(30_encoding.md sections 1 and 3, opcode_table.json.) -/
def Obligations.DecodeOfEncodeIsTheInstruction : Prop :=
  ∀ i : Instr, decode (encode i) = .ok i

/-- For every recognised word, encode of the decoded instruction is the word with the bits its form neither dispatches on
nor renders set to 0, and every other bit kept. The spec has no encoder: that encode writes 0 in the ignored bits is
the model's choice (log entry 11). (30_encoding.md sections 1, 3 and 5, opcode_table.json.) -/
def Obligations.EncodeOfDecodeClearsOnlyIgnoredBits : Prop :=
  ∀ (w : Word) (i : Instr), decode w = .ok i → encode i = w &&& readBits (formOf i.mnemonic)

/-- For every word and mnemonic: the word decodes to an instruction of that mnemonic if and only if the word and the mask
of the mnemonic's row of opcode_table.json is the row's match. (opcode_table.json, 30_encoding.md section 3.) -/
def Obligations.DecodeFollowsTheOpcodeTableRows : Prop :=
  ∀ (w : Word) (m : Mnemonic), (∃ i, decode w = .ok i ∧ i.mnemonic = m) ↔ w &&& rowMask m = rowMatch m

/-- A word gives UnknownOpcode exactly when its opcode is one of the 46 absent values, whatever its other fields hold;
UnknownFunctionCode exactly when its opcode is 0 and its function code one of the 44 absent values;
UnhandledBranchSelector exactly when its opcode is 1 and rt is 2 or more. No two of the three causes hold together.
(R46, R95.) -/
def Obligations.FailureKindsAreExactlyTheAbsentCodes : Prop :=
  ∀ w : Word,
    (decode w = .fail .unknownOpcode ↔ absentOpcode (opcodeOf w).toNat) ∧
    (decode w = .fail .unknownFunctionCode ↔ opcodeOf w = 0 ∧ absentFunct (functOf w).toNat) ∧
    (decode w = .fail .unhandledBranchSelector ↔ opcodeOf w = 1 ∧ 2 ≤ (rtOf w).toNat) ∧
    ¬ (absentOpcode (opcodeOf w).toNat ∧ (opcodeOf w = 0 ∨ opcodeOf w = 1))

/-- A word that agrees with a recognised word on the bits its form reads decodes to the same instruction, and two decodes
of such words at the same pc and offset setting, from any two states, give the same mnemonic and text. Whether and how
a word fails depends on its opcode, on funct only when the opcode is 0 and on rt only when it is 1. (R42.) -/
def Obligations.IgnoredFieldsChangeNothing : Prop :=
  (∀ (w w' : Word) (i : Instr), decode w = .ok i → w' &&& readBits (formOf i.mnemonic) = w &&& readBits (formOf i.mnemonic) →
    decode w' = .ok i) ∧
  (∀ (s s' : State) (i : Instr), Decodes s → Decodes s' → s.cfg.branchOffsetSigned = s'.cfg.branchOffsetSigned →
    (nextInputs s).pc = (nextInputs s').pc → decode (nextInputs s).word = .ok i →
    (nextInputs s').word &&& readBits (formOf i.mnemonic) = (nextInputs s).word &&& readBits (formOf i.mnemonic) →
    ∃ t t', step s = .next t ∧ step s' = .next t' ∧ t.out.mnem = t'.out.mnem ∧ t.out.text = t'.out.text) ∧
  (∀ (w w' : Word) (k : FailKind), opcodeOf w' = opcodeOf w → (opcodeOf w = 0 → functOf w' = functOf w) →
    (opcodeOf w = 1 → rtOf w' = rtOf w) → decode w = .fail k → decode w' = .fail k)

/-- One word of each family, written out field by field from its layout, decodes to its instruction: sll, jr, syscall,
mthi, mult, add, bltz, j, lui, lw, beq and addi; and three words of the test vectors fail, each with its kind.
(95_test_vectors.md sections L1 and L2, 30_encoding.md rules R34 and R37.) -/
def Obligations.WordsOfTheSpecDecodeAsItSays : Prop :=
  decode (0b000000#6 ++ 0b00000#5 ++ 0b01001#5 ++ 0b01000#5 ++ 0b00100#5 ++ 0b000000#6) = .ok (.sll 8 9 4) ∧
  decode (0b000000#6 ++ 0b11111#5 ++ 0b00101#5 ++ 0b00111#5 ++ 0b00011#5 ++ 0b001000#6) = .ok (.jr 31) ∧
  decode (0b000000#6 ++ 0b11111#5 ++ 0b11111#5 ++ 0b11111#5 ++ 0b11111#5 ++ 0b001100#6) = .ok .syscall ∧
  decode (0b000000#6 ++ 0b01000#5 ++ 0b00000#5 ++ 0b00000#5 ++ 0b00000#5 ++ 0b010001#6) = .ok (.mthi 0) ∧
  decode (0b000000#6 ++ 0b00100#5 ++ 0b00101#5 ++ 0b11111#5 ++ 0b00011#5 ++ 0b011000#6) = .ok (.mult 4 5) ∧
  decode (0b000000#6 ++ 0b01000#5 ++ 0b01001#5 ++ 0b01010#5 ++ 0b00000#5 ++ 0b100000#6) = .ok (.add 10 8 9) ∧
  decode (0b000001#6 ++ 0b01000#5 ++ 0b00000#5 ++ 0xffff#16) = .ok (.bltz 8 0xffff) ∧
  decode (0b000010#6 ++ 0x100#26) = .ok (.j 0x100) ∧
  decode (0b001111#6 ++ 0b00101#5 ++ 0b01000#5 ++ 0x1234#16) = .ok (.lui 8 0x1234) ∧
  decode (0b100011#6 ++ 0b01001#5 ++ 0b01000#5 ++ 0x8001#16) = .ok (.lw 8 9 0x8001) ∧
  decode (0b000100#6 ++ 0b01000#5 ++ 0b01001#5 ++ 0x0002#16) = .ok (.beq 9 8 2) ∧
  decode (0b001000#6 ++ 0b00000#5 ++ 0b01000#5 ++ 0xffff#16) = .ok (.addi 8 0 0xffff) ∧
  decode 0x24080001 = .fail .unknownOpcode ∧ decode 0x0000000f = .fail .unknownFunctionCode ∧
  decode 0x05100004 = .fail .unhandledBranchSelector

/-- Every word with opcode 0 and function code 0, 2 or 3 decodes to sll, srl or sra with the word's rd, rt and shamt. From
every state each always gives Ok with its mnemonic id, form code 0, and its mnemonic with rd, rt and the decimal
amount as text. Only the outputs, and out_valid in the pipelined variant, change, and the always-driven outputs are
those of the word and pc at the ports. In the pipelined variant out_valid is 1 once a reset edge has come; before, it
is unspecified (R107), so nothing is said of it and one free value is drawn. That a combinational state has an
out_valid, left as it is (log entry 7), and that the parameters, the schedule, the count of draws and whether a reset
edge has come stand in the state (entries 1, 3, 5 and 16) are the model's choices. (40_regreg.md rules R53, R54 and
R55.) -/
def Obligations.ShiftsPrintRdRtAndTheDecimalAmount : Prop :=
  (∀ w : Word, opcodeOf w = 0 →
    (functOf w = 0 → decode w = .ok (.sll (rdOf w) (rtOf w) (shamtOf w))) ∧
    (functOf w = 2 → decode w = .ok (.srl (rdOf w) (rtOf w) (shamtOf w))) ∧
    (functOf w = 3 → decode w = .ok (.sra (rdOf w) (rtOf w) (shamtOf w)))) ∧
  (∀ (rd rt : RegIndex) (shamt : BitVec 5),
    AlwaysGives (.sll rd rt shamt) 0 0 (fun _ => line "sll".toList [reg rd, reg rt, dec shamt.toNat]) ∧
    AlwaysGives (.srl rd rt shamt) 1 0 (fun _ => line "srl".toList [reg rd, reg rt, dec shamt.toNat]) ∧
    AlwaysGives (.sra rd rt shamt) 2 0 (fun _ => line "sra".toList [reg rd, reg rt, dec shamt.toNat]))

/-- Every word with opcode 0 and function code 8 or 9 decodes to jr or jalr with the word's rs. From every state each
always gives Ok with its mnemonic id, form code 1, and its mnemonic with rs as text. Only the outputs, and out_valid
in the pipelined variant, change, and the always-driven outputs are those of the word and pc at the ports. In the
pipelined variant out_valid is 1 once a reset edge has come; before, it is unspecified (R107), so nothing is said of
it and one free value is drawn. That a combinational state has an out_valid, left as it is (log entry 7), and that the
parameters, the schedule, the count of draws and whether a reset edge has come stand in the state (entries 1, 3, 5 and
16) are the model's choices. (40_regreg.md rules R56 and R57.) -/
def Obligations.RegisterJumpsPrintRsAlone : Prop :=
  (∀ w : Word, opcodeOf w = 0 →
    (functOf w = 8 → decode w = .ok (.jr (rsOf w))) ∧
    (functOf w = 9 → decode w = .ok (.jalr (rsOf w)))) ∧
  (∀ (rs : RegIndex),
    AlwaysGives (.jr rs) 3 1 (fun _ => line "jr".toList [reg rs]) ∧
    AlwaysGives (.jalr rs) 4 1 (fun _ => line "jalr".toList [reg rs]))

/-- Every word with opcode 0 and function code 12 or 13 decodes to syscall or break. From every state each answers a next
state with Ok, its mnemonic id, form code 2, and the bare mnemonic as text. Only the outputs, and out_valid in the
pipelined variant, change, and the always-driven outputs are those of the word and pc at the ports. In the pipelined
variant out_valid is 1 once a reset edge has come; before, it is unspecified (R107), so nothing is said of it and one
free value is drawn. That a combinational state has an out_valid, left as it is (log entry 7), and that the
parameters, the schedule, the count of draws and whether a reset edge has come stand in the state (entries 1, 3, 5 and
16) are the model's choices. (40_regreg.md rules R58 and R59, 60_exceptions.md rule R98.) -/
def Obligations.SyscallAndBreakPrintTheMnemonicAlone : Prop :=
  (∀ w : Word, opcodeOf w = 0 →
    (functOf w = 12 → decode w = .ok .syscall) ∧
    (functOf w = 13 → decode w = .ok .break_)) ∧
  (
    AlwaysGives .syscall 5 2 (fun _ => "syscall".toList) ∧
    AlwaysGives .break_ 6 2 (fun _ => "break".toList))

/-- Every word with opcode 0 and function code 16, 17, 18 or 19 decodes to mfhi, mthi, mflo or mtlo with the word's rd.
From every state each always gives Ok with its mnemonic id, form code 3, and its mnemonic with rd as text. Only the
outputs, and out_valid in the pipelined variant, change, and the always-driven outputs are those of the word and pc at
the ports. In the pipelined variant out_valid is 1 once a reset edge has come; before, it is unspecified (R107), so
nothing is said of it and one free value is drawn. That a combinational state has an out_valid, left as it is (log
entry 7), and that the parameters, the schedule, the count of draws and whether a reset edge has come stand in the
state (entries 1, 3, 5 and 16) are the model's choices. (40_regreg.md rules R60, R61, R62 and R63.) -/
def Obligations.MovesPrintRdAlone : Prop :=
  (∀ w : Word, opcodeOf w = 0 →
    (functOf w = 16 → decode w = .ok (.mfhi (rdOf w))) ∧
    (functOf w = 17 → decode w = .ok (.mthi (rdOf w))) ∧
    (functOf w = 18 → decode w = .ok (.mflo (rdOf w))) ∧
    (functOf w = 19 → decode w = .ok (.mtlo (rdOf w)))) ∧
  (∀ (rd : RegIndex),
    AlwaysGives (.mfhi rd) 7 3 (fun _ => line "mfhi".toList [reg rd]) ∧
    AlwaysGives (.mthi rd) 8 3 (fun _ => line "mthi".toList [reg rd]) ∧
    AlwaysGives (.mflo rd) 9 3 (fun _ => line "mflo".toList [reg rd]) ∧
    AlwaysGives (.mtlo rd) 10 3 (fun _ => line "mtlo".toList [reg rd]))

/-- Every word with opcode 0 and function code 24 or 26 decodes to mult or div with the word's rs and rt. From every state
each always gives Ok with its mnemonic id, form code 4, and its mnemonic with rs and rt as text; a divisor $zero is no
exception. Only the outputs, and out_valid in the pipelined variant, change, and the always-driven outputs are those
of the word and pc at the ports. In the pipelined variant out_valid is 1 once a reset edge has come; before, it is
unspecified (R107), so nothing is said of it and one free value is drawn. That a combinational state has an out_valid,
left as it is (log entry 7), and that the parameters, the schedule, the count of draws and whether a reset edge has
come stand in the state (entries 1, 3, 5 and 16) are the model's choices. (40_regreg.md rules R64 and R65.) -/
def Obligations.MultAndDivPrintRsRt : Prop :=
  (∀ w : Word, opcodeOf w = 0 →
    (functOf w = 24 → decode w = .ok (.mult (rsOf w) (rtOf w))) ∧
    (functOf w = 26 → decode w = .ok (.div (rsOf w) (rtOf w)))) ∧
  (∀ (rs rt : RegIndex),
    AlwaysGives (.mult rs rt) 11 4 (fun _ => line "mult".toList [reg rs, reg rt]) ∧
    AlwaysGives (.div rs rt) 12 4 (fun _ => line "div".toList [reg rs, reg rt]))

/-- Every word with opcode 0 and function code 32, 34, 36, 37, 38, 39 or 42 decodes to add, sub, and, or, xor, nor or slt
with the word's rd, rs and rt. From every state each always gives Ok with its mnemonic id, form code 5, and its
mnemonic with rd, rs and rt as text. Only the outputs, and out_valid in the pipelined variant, change, and the always-
driven outputs are those of the word and pc at the ports. In the pipelined variant out_valid is 1 once a reset edge
has come; before, it is unspecified (R107), so nothing is said of it and one free value is drawn. That a combinational
state has an out_valid, left as it is (log entry 7), and that the parameters, the schedule, the count of draws and
whether a reset edge has come stand in the state (entries 1, 3, 5 and 16) are the model's choices. (40_regreg.md rules
R66, R67, R68, R69, R70, R71 and R72.) -/
def Obligations.ArithmeticAndLogicPrintRdRsRt : Prop :=
  (∀ w : Word, opcodeOf w = 0 →
    (functOf w = 32 → decode w = .ok (.add (rdOf w) (rsOf w) (rtOf w))) ∧
    (functOf w = 34 → decode w = .ok (.sub (rdOf w) (rsOf w) (rtOf w))) ∧
    (functOf w = 36 → decode w = .ok (.and (rdOf w) (rsOf w) (rtOf w))) ∧
    (functOf w = 37 → decode w = .ok (.or (rdOf w) (rsOf w) (rtOf w))) ∧
    (functOf w = 38 → decode w = .ok (.xor (rdOf w) (rsOf w) (rtOf w))) ∧
    (functOf w = 39 → decode w = .ok (.nor (rdOf w) (rsOf w) (rtOf w))) ∧
    (functOf w = 42 → decode w = .ok (.slt (rdOf w) (rsOf w) (rtOf w)))) ∧
  (∀ (rd rs rt : RegIndex),
    AlwaysGives (.add rd rs rt) 13 5 (fun _ => line "add".toList [reg rd, reg rs, reg rt]) ∧
    AlwaysGives (.sub rd rs rt) 14 5 (fun _ => line "sub".toList [reg rd, reg rs, reg rt]) ∧
    AlwaysGives (.and rd rs rt) 15 5 (fun _ => line "and".toList [reg rd, reg rs, reg rt]) ∧
    AlwaysGives (.or rd rs rt) 16 5 (fun _ => line "or".toList [reg rd, reg rs, reg rt]) ∧
    AlwaysGives (.xor rd rs rt) 17 5 (fun _ => line "xor".toList [reg rd, reg rs, reg rt]) ∧
    AlwaysGives (.nor rd rs rt) 18 5 (fun _ => line "nor".toList [reg rd, reg rs, reg rt]) ∧
    AlwaysGives (.slt rd rs rt) 19 5 (fun _ => line "slt".toList [reg rd, reg rs, reg rt]))

/-- Every word with opcode 1 and rt 0 or 1 decodes to bltz or bgez with the word's rs and imm16. From every state each
always gives Ok with its mnemonic id, form code 6, and its mnemonic with rs and the hex of the raw field as text,
which does not depend on the pc. Only the outputs, and out_valid in the pipelined variant, change, and the always-
driven outputs are those of the word and pc at the ports. In the pipelined variant out_valid is 1 once a reset edge
has come; before, it is unspecified (R107), so nothing is said of it and one free value is drawn. That a combinational
state has an out_valid, left as it is (log entry 7), and that the parameters, the schedule, the count of draws and
whether a reset edge has come stand in the state (entries 1, 3, 5 and 16) are the model's choices. (41_regimm.md rules
R73 and R74.) -/
def Obligations.SelectorBranchesPrintRsAndTheRawField : Prop :=
  (∀ w : Word, opcodeOf w = 1 →
    (rtOf w = 0 → decode w = .ok (.bltz (rsOf w) (imm16Of w))) ∧
    (rtOf w = 1 → decode w = .ok (.bgez (rsOf w) (imm16Of w)))) ∧
  (∀ (rs : RegIndex) (imm16 : BitVec 16),
    AlwaysGives (.bltz rs imm16) 20 6 (fun _ => line "bltz".toList [reg rs, hex imm16.toNat]) ∧
    AlwaysGives (.bgez rs imm16) 21 6 (fun _ => line "bgez".toList [reg rs, hex imm16.toNat]))

/-- Every word with opcode 2 or 3 decodes to j or jal with the word's addr26. From every state each always gives Ok with
its mnemonic id, form code 7, and its mnemonic with the hex of four times the field as text, which does not depend on
the pc. Only the outputs, and out_valid in the pipelined variant, change, and the always-driven outputs are those of
the word and pc at the ports. In the pipelined variant out_valid is 1 once a reset edge has come; before, it is
unspecified (R107), so nothing is said of it and one free value is drawn. That a combinational state has an out_valid,
left as it is (log entry 7), and that the parameters, the schedule, the count of draws and whether a reset edge has
come stand in the state (entries 1, 3, 5 and 16) are the model's choices. (42_jump.md rules R76 and R77.) -/
def Obligations.JumpsPrintFourTimesTheField : Prop :=
  (∀ w : Word,
    (opcodeOf w = 2 → decode w = .ok (.j (addr26Of w))) ∧
    (opcodeOf w = 3 → decode w = .ok (.jal (addr26Of w)))) ∧
  (∀ (addr26 : BitVec 26),
    AlwaysGives (.j addr26) 22 7 (fun _ => line "j".toList [hex (4 * addr26.toNat)]) ∧
    AlwaysGives (.jal addr26) 23 7 (fun _ => line "jal".toList [hex (4 * addr26.toNat)]))

/-- Every word with opcode 15 decodes to lui with the word's rt and imm16. From every state it always gives Ok with
mnemonic id 24, form code 8, and as text the mnemonic, a space, rt and at once the hex of the raw field. Only the
outputs, and out_valid in the pipelined variant, change, and the always-driven outputs are those of the word and pc at
the ports. In the pipelined variant out_valid is 1 once a reset edge has come; before, it is unspecified (R107), so
nothing is said of it and one free value is drawn. That a combinational state has an out_valid, left as it is (log
entry 7), and that the parameters, the schedule, the count of draws and whether a reset edge has come stand in the
state (entries 1, 3, 5 and 16) are the model's choices. (43_lui.md rule R78.) -/
def Obligations.LuiPrintsRtAndTheRawFieldUnseparated : Prop :=
  (∀ w : Word,
    (opcodeOf w = 15 → decode w = .ok (.lui (rtOf w) (imm16Of w)))) ∧
  (∀ (rt : RegIndex) (imm16 : BitVec 16),
    AlwaysGives (.lui rt imm16) 24 8 (fun _ => "lui ".toList ++ reg rt ++ hex imm16.toNat))

/-- Every word with opcode 32, 35, 40 or 43 decodes to lb, lw, sb or sw with the word's rt, rs and imm16. From every state
each always gives Ok with its mnemonic id, form code 9, and its mnemonic with rt and the displacement before (rs) as
text: the hex of the raw field from 0x8000 on, else the decimal value. Only the outputs, and out_valid in the
pipelined variant, change, and the always-driven outputs are those of the word and pc at the ports. In the pipelined
variant out_valid is 1 once a reset edge has come; before, it is unspecified (R107), so nothing is said of it and one
free value is drawn. That a combinational state has an out_valid, left as it is (log entry 7), and that the
parameters, the schedule, the count of draws and whether a reset edge has come stand in the state (entries 1, 3, 5 and
16) are the model's choices. (44_load_store.md rules R79, R80, R81 and R82.) -/
def Obligations.LoadsAndStoresPrintRtAndDisplacementOfRs : Prop :=
  (∀ w : Word,
    (opcodeOf w = 32 → decode w = .ok (.lb (rtOf w) (rsOf w) (imm16Of w))) ∧
    (opcodeOf w = 35 → decode w = .ok (.lw (rtOf w) (rsOf w) (imm16Of w))) ∧
    (opcodeOf w = 40 → decode w = .ok (.sb (rtOf w) (rsOf w) (imm16Of w))) ∧
    (opcodeOf w = 43 → decode w = .ok (.sw (rtOf w) (rsOf w) (imm16Of w)))) ∧
  (∀ (rt rs : RegIndex) (imm16 : BitVec 16),
    AlwaysGives (.lb rt rs imm16) 25 9 (fun _ => line "lb".toList [reg rt, (if imm16.toNat ≥ 0x8000 then hex imm16.toNat else dec imm16.toNat) ++ "(".toList ++ reg rs ++ ")".toList]) ∧
    AlwaysGives (.lw rt rs imm16) 26 9 (fun _ => line "lw".toList [reg rt, (if imm16.toNat ≥ 0x8000 then hex imm16.toNat else dec imm16.toNat) ++ "(".toList ++ reg rs ++ ")".toList]) ∧
    AlwaysGives (.sb rt rs imm16) 27 9 (fun _ => line "sb".toList [reg rt, (if imm16.toNat ≥ 0x8000 then hex imm16.toNat else dec imm16.toNat) ++ "(".toList ++ reg rs ++ ")".toList]) ∧
    AlwaysGives (.sw rt rs imm16) 28 9 (fun _ => line "sw".toList [reg rt, (if imm16.toNat ≥ 0x8000 then hex imm16.toNat else dec imm16.toNat) ++ "(".toList ++ reg rs ++ ")".toList]))

/-- Every word with opcode 4, 5, 6 or 7 decodes to beq, bne, blez or bgtz with the word's rt, rs and imm16. From every
state each always gives Ok with its mnemonic id, form code 10, and its mnemonic with rt, rs and the hex of (pc + 4 + 4
* off) mod 2^32 as text, off being sign-extended or raw as BRANCH_OFFSET_SIGNED says. Only the outputs, and out_valid
in the pipelined variant, change, and the always-driven outputs are those of the word and pc at the ports. In the
pipelined variant out_valid is 1 once a reset edge has come; before, it is unspecified (R107), so nothing is said of
it and one free value is drawn. That a combinational state has an out_valid, left as it is (log entry 7), and that the
parameters, the schedule, the count of draws and whether a reset edge has come stand in the state (entries 1, 3, 5 and
16) are the model's choices. (45_branch.md rules R83, R84, R85 and R86.) -/
def Obligations.BranchesPrintRtRsAndTheTarget : Prop :=
  (∀ w : Word,
    (opcodeOf w = 4 → decode w = .ok (.beq (rtOf w) (rsOf w) (imm16Of w))) ∧
    (opcodeOf w = 5 → decode w = .ok (.bne (rtOf w) (rsOf w) (imm16Of w))) ∧
    (opcodeOf w = 6 → decode w = .ok (.blez (rtOf w) (rsOf w) (imm16Of w))) ∧
    (opcodeOf w = 7 → decode w = .ok (.bgtz (rtOf w) (rsOf w) (imm16Of w)))) ∧
  (∀ (rt rs : RegIndex) (imm16 : BitVec 16),
    AlwaysGives (.beq rt rs imm16) 29 10
      (fun s => line "beq".toList [reg rt, reg rs, hex (((s.inp.pc.toNat : Int) + 4 + 4 * (if s.cfg.branchOffsetSigned then imm16.toInt else imm16.toNat)) % 2 ^ 32).toNat]) ∧
    AlwaysGives (.bne rt rs imm16) 30 10
      (fun s => line "bne".toList [reg rt, reg rs, hex (((s.inp.pc.toNat : Int) + 4 + 4 * (if s.cfg.branchOffsetSigned then imm16.toInt else imm16.toNat)) % 2 ^ 32).toNat]) ∧
    AlwaysGives (.blez rt rs imm16) 31 10
      (fun s => line "blez".toList [reg rt, reg rs, hex (((s.inp.pc.toNat : Int) + 4 + 4 * (if s.cfg.branchOffsetSigned then imm16.toInt else imm16.toNat)) % 2 ^ 32).toNat]) ∧
    AlwaysGives (.bgtz rt rs imm16) 32 10
      (fun s => line "bgtz".toList [reg rt, reg rs, hex (((s.inp.pc.toNat : Int) + 4 + 4 * (if s.cfg.branchOffsetSigned then imm16.toInt else imm16.toNat)) % 2 ^ 32).toNat]))

/-- Every word with opcode 8, 10, 12, 13 or 14 decodes to addi, slti, andi, ori or xori with the word's rt, rs and imm16.
From every state each always gives Ok with its mnemonic id, form code 11, and its mnemonic with rt, rs and the signed
hex of the sign-extended immediate as text, for the logical ones too. Only the outputs, and out_valid in the pipelined
variant, change, and the always-driven outputs are those of the word and pc at the ports. In the pipelined variant
out_valid is 1 once a reset edge has come; before, it is unspecified (R107), so nothing is said of it and one free
value is drawn. That a combinational state has an out_valid, left as it is (log entry 7), and that the parameters, the
schedule, the count of draws and whether a reset edge has come stand in the state (entries 1, 3, 5 and 16) are the
model's choices. (46_imm_arith.md rules R87, R88, R89, R90 and R91.) -/
def Obligations.ImmediatesPrintRtRsAndTheSignedHex : Prop :=
  (∀ w : Word,
    (opcodeOf w = 8 → decode w = .ok (.addi (rtOf w) (rsOf w) (imm16Of w))) ∧
    (opcodeOf w = 10 → decode w = .ok (.slti (rtOf w) (rsOf w) (imm16Of w))) ∧
    (opcodeOf w = 12 → decode w = .ok (.andi (rtOf w) (rsOf w) (imm16Of w))) ∧
    (opcodeOf w = 13 → decode w = .ok (.ori (rtOf w) (rsOf w) (imm16Of w))) ∧
    (opcodeOf w = 14 → decode w = .ok (.xori (rtOf w) (rsOf w) (imm16Of w)))) ∧
  (∀ (rt rs : RegIndex) (imm16 : BitVec 16),
    AlwaysGives (.addi rt rs imm16) 33 11 (fun _ => line "addi".toList [reg rt, reg rs, shex imm16.toInt]) ∧
    AlwaysGives (.slti rt rs imm16) 34 11 (fun _ => line "slti".toList [reg rt, reg rs, shex imm16.toInt]) ∧
    AlwaysGives (.andi rt rs imm16) 35 11 (fun _ => line "andi".toList [reg rt, reg rs, shex imm16.toInt]) ∧
    AlwaysGives (.ori rt rs imm16) 36 11 (fun _ => line "ori".toList [reg rt, reg rs, shex imm16.toInt]) ∧
    AlwaysGives (.xori rt rs imm16) 37 11 (fun _ => line "xori".toList [reg rt, reg rs, shex imm16.toInt]))

/-- When the next step decodes and the word presented decodes to i, step is exec i at the state whose ports hold the
inputs presented, with the rest of the schedule pending and everything else as before; a word placed with
withFetchWord is the one the next step decodes. That inputs come from a schedule in the state is the model's choice
(log entries 2, 3 and 13). (10_state.md sections 3 and 4, 30_encoding.md section 3.) -/
def Obligations.StepRunsTheDecodedInstruction : Prop :=
  (∀ (s : State) (i : Instr), Decodes s → decode (nextInputs s).word = .ok i → step s = exec i (presentInputs s)) ∧
  (∀ s : State, (presentInputs s).inp = nextInputs s ∧ (presentInputs s).pending = s.pending.tail ∧
    (presentInputs s).cfg = s.cfg ∧ (presentInputs s).out = s.out ∧ (presentInputs s).outValid = s.outValid ∧
    (presentInputs s).resetSeen = s.resetSeen ∧ (presentInputs s).draws = s.draws) ∧
  (∀ (s : State) (w : Word), Decodes (s.withFetchWord 32 w.toNat) ∧ (nextInputs (s.withFetchWord 32 w.toNat)).word = w ∧
    (nextInputs (s.withFetchWord 32 w.toNat)).pc = s.inp.pc)

/-- When the next step decodes: an absent opcode gives err 01, opcode 0 with an absent function code gives err 10, opcode
1 with rt of 2 or more gives err 11, each with ok 0, mnem 0, form 0 and the text "error"; the always-driven outputs
are those of the inputs, and the parameters, and whether a reset edge has come, are as before. A recognised word gives
ok 1 and err 00. out_valid is then 1 in the pipelined variant once a reset edge has come and as before in the
combinational one; before the first reset edge it is unspecified (R107), so nothing is said of it and one free value
is drawn, and else the count of draws is as before. That a combinational state has an out_valid, left as it is (log
entry 7), and that the parameters, the schedule, the count of draws and whether a reset edge has come stand in the
state (entries 1, 3, 5 and 16) are the model's choices. (41_regimm.md rule R75, 60_exceptions.md section 1, rules R92,
R93 and R94.) -/
def Obligations.FailingWordsGiveTheErrorValue : Prop :=
  ∀ s : State, Decodes s → ∃ t, step s = .next t ∧
    DrivenBy s.cfg (nextInputs s) t.out ∧ OnlyOutputsChange (presentInputs s) t ∧
    ValidAfterDecode s t ∧
    (absentOpcode (opcodeOf (nextInputs s).word).toNat → t.out.ok = false ∧ t.out.err = 0b01) ∧
    (opcodeOf (nextInputs s).word = 0 ∧ absentFunct (functOf (nextInputs s).word).toNat →
      t.out.ok = false ∧ t.out.err = 0b10) ∧
    (opcodeOf (nextInputs s).word = 1 ∧ 2 ≤ (rtOf (nextInputs s).word).toNat → t.out.ok = false ∧ t.out.err = 0b11) ∧
    (t.out.ok = false → t.out.mnem = 0 ∧ t.out.form = 0 ∧ t.out.text = "error".toList) ∧
    ((∃ i, decode (nextInputs s).word = .ok i) ↔ t.out.ok = true) ∧ (t.out.ok = true → t.out.err = 0b00)

/-- From every state the step answers a next state. Two decodes of the same word at the same pc with the same offset
setting give equal outputs, whatever the two states held before, and in either variant. (R1, R109.) -/
def Obligations.EveryInputHasOneResultWhateverCameBefore : Prop :=
  (∀ s : State, ∃ t, step s = .next t) ∧
  (∀ s s' : State, Decodes s → Decodes s' → s.cfg.branchOffsetSigned = s'.cfg.branchOffsetSigned →
    (nextInputs s).word = (nextInputs s').word → (nextInputs s).pc = (nextInputs s').pc →
    ∃ t t', step s = .next t ∧ step s' = .next t' ∧ t.out = t'.out)

/-- Two decodes of the same word at any two pcs agree on every output but btarget and text, and on the text too unless the
opcode is 4 to 7. After every step the input ports, pc among them, hold exactly what the host presented. That what the
host presents is a schedule in the state, and that the ports keep their values when it is at its end, are the model's
choices (log entry 3). (10_state.md section 3, rule R18.) -/
def Obligations.PcReachesOnlyTheBranchTarget : Prop :=
  (∀ s s' : State, Decodes s → Decodes s' → s.cfg = s'.cfg → (nextInputs s).word = (nextInputs s').word →
    ∃ t t', step s = .next t ∧ step s' = .next t' ∧
      { t.out with btarget := 0, text := [] } = { t'.out with btarget := 0, text := [] } ∧
      (¬ (4 ≤ (opcodeOf (nextInputs s).word).toNat ∧ (opcodeOf (nextInputs s).word).toNat ≤ 7) → t.out.text = t'.out.text)) ∧
  (∀ s t : State, step s = .next t → t.inp = nextInputs s)

/-- For every pc and 16-bit field the target is (pc + 4 + 4 * field) mod 2^32 when the field is below 0x8000 or the offset
is raw, and 2^18 less, still mod 2^32, when the offset is signed and the field is 0x8000 or more. It is the btarget
output of every word. (30_encoding.md section 4, rule R43, 20_memory.md rule R27.) -/
def Obligations.BranchTargetWrapsModuloTwoToThe32 : Prop :=
  (∀ (c : Config) (pc : Word) (imm16 : BitVec 16),
    (imm16.toNat < 0x8000 ∨ c.branchOffsetSigned = false →
      (branchTarget c pc imm16).toNat = (pc.toNat + 4 + 4 * imm16.toNat) % 2 ^ 32) ∧
    (0x8000 ≤ imm16.toNat ∧ c.branchOffsetSigned = true →
      (branchTarget c pc imm16).toNat = (pc.toNat + 4 + 4 * imm16.toNat + (2 ^ 32 - 2 ^ 18)) % 2 ^ 32)) ∧
  (∀ c x, (drivenOutputs c x).btarget = branchTarget c x.pc (imm16Of x.word))

/-- For every 26-bit field the target is four times it, at most 0x0ffffffc; the jtarget output depends on the word alone.
(R44.) -/
def Obligations.JumpTargetIsFourTimesTheField : Prop :=
  (∀ addr26 : BitVec 26, (jumpTarget addr26).toNat = 4 * addr26.toNat ∧ (jumpTarget addr26).toNat ≤ 0x0ffffffc) ∧
  (∀ c x, (drivenOutputs c x).jtarget.toNat = 4 * (addr26Of x.word).toNat)

/-- For every 16-bit field: from 0x8000 on the displacement is "0x" and the base-16 numeral of the raw field; below it is
the base-10 numeral of the value. (R47.) -/
def Obligations.DisplacementIsHexFromEightThousandHex : Prop :=
  ∀ imm16 : BitVec 16,
    (0x8000 ≤ imm16.toNat → ∃ ds, displacement imm16 = "0x".toList ++ ds ∧ Numeral 16 imm16.toNat ds) ∧
    (imm16.toNat < 0x8000 → Numeral 10 imm16.toNat (displacement imm16))

/-- After every step that decodes, the text has at least 1 and at most 27 characters, each printable ASCII. (10_state.md
section 1, rule R11, 00_scope.md section 4 (TEXT_MAX), 92_eei_decisions.md D20.) -/
def Obligations.TextHasOneToTwentySevenPrintableCharacters : Prop :=
  ∀ s : State, Decodes s → ∃ t, step s = .next t ∧ 1 ≤ t.out.text.length ∧ t.out.text.length ≤ 27 ∧
    ∀ ch ∈ t.out.text, Printable ch

/-- For every instruction and state, running it is returning Ok of a decoded instruction that has the instruction's
mnemonic and is well formed: the form is the mnemonic's, the operand count the form's, and no operand is empty or
holds a space or a comma. (30_encoding.md section 5, rule R48.) -/
def Obligations.EveryMeaningReturnsAWellFormedInstruction : Prop :=
  ∀ (i : Instr) (s : State), ∃ d : DecodedInstruction,
    d.mnemonic = i.mnemonic ∧ d.wellFormed = true ∧ exec i s = returnOk d s

/-- Whenever the next step decodes (always in the combinational variant, at an edge with rst 0 and in_valid 1 in the
pipelined one), the outputs after it are comb(word, pc): ok, err, mnem, form and text are those of the result of the
pseudocode of R52 on the word and pc as numbers, and the always-driven outputs are those of the inputs. In the
pipelined variant out_valid is 1 once a reset edge has come; before, it is unspecified (R107) and nothing is said of
it. That whether a reset edge has come (log entry 16) and the schedule of inputs (entry 3) stand in the state is the
model's choice. (10_state.md section 4, 30_encoding.md section 6, rule R52, 70_reset_and_hazards.md section 2.) -/
def Obligations.DecodingStepRefinesThePseudocode : Prop :=
  ∀ s : State, Decodes s → ∃ t, step s = .next t ∧ IsCombOf s.cfg (nextInputs s) t.out ∧
    (s.cfg.pipelined = true → s.resetSeen = true → t.outValid = true)

/-- In the pipelined variant, when rst and in_valid are 0 in the inputs presented, the step gives a next state with every
output as before, the parameters as before, the inputs presented at the ports, and the rest of the schedule pending.
Once a reset edge has come, out_valid is 0 and the count of draws as before; before, out_valid is unspecified (R107),
so nothing is said of it and one free value is drawn. Whether a reset edge has come is as before. That the inputs come
from a schedule in the state (log entry 3), and that the parameters, the count of draws and whether a reset edge has
come stand there (entries 1, 5 and 16), are the model's choices. (10_state.md section 4, 70_reset_and_hazards.md
section 1, 92_eei_decisions.md D18.) -/
def Obligations.IdleEdgeHoldsThePayload : Prop :=
  ∀ s : State, s.cfg.pipelined = true → (nextInputs s).rst = false → (nextInputs s).inValid = false →
    ∃ t, step s = .next t ∧ (s.resetSeen = true → t.outValid = false) ∧ t.out = s.out ∧ t.cfg = s.cfg ∧
      t.resetSeen = s.resetSeen ∧ t.draws = s.draws + (if s.resetSeen then 0 else 1) ∧
      t.inp = nextInputs s ∧ t.pending = s.pending.tail

/-- In the pipelined variant, from every state, an edge with rst 1 gives a next state with out_valid 0, whatever in_valid
and the word are; the payload then is an unspecified one of at most 27 text characters (the model's free value, log
entry 5). That a reset edge has come is then recorded. That this and the schedule of inputs stand in the state is the
model's choice (log entries 16 and 3). From power-up with any pipelined setting, one such edge and then one edge with
rst 0 and in_valid 1 give out_valid 1 and comb of the word. (70_reset_and_hazards.md sections 1 and 2, rules R107 and
R108, 92_eei_decisions.md D17.) -/
def Obligations.ResetEdgeClearsOutValidFirst : Prop :=
  (∀ s : State, s.cfg.pipelined = true → (nextInputs s).rst = true →
    ∃ t, step s = .next t ∧ t.outValid = false ∧ t.resetSeen = true ∧ t.out.text.length ≤ 27 ∧ t.cfg = s.cfg ∧
      t.inp = nextInputs s ∧ t.pending = s.pending.tail) ∧
  (∀ (c : Config) (x y : Inputs) (rest : List Inputs), c.pipelined = true → x.rst = true → y.rst = false →
    y.inValid = true → ∃ t, Host.Core.run Sys2Proof.core 2 (State.powerUp c (x :: y :: rest)) = .next t ∧
      t.outValid = true ∧ IsCombOf c y t.out ∧ t.pending = rest)

/-- For every state and place k of its schedule: if the entry there decodes (in the pipelined variant rst 0 and in_valid
1), then k + 1 steps answer a next state whose outputs are comb of that entry's word and pc, with the rest of the
schedule pending, whatever the entries before it are: failing words, resets, idle edges. In the pipelined variant
out_valid is then 1 if a reset edge had come before the run or one of the k entries before has rst 1, as R108 asks.
The schedule is the model's form of the host's list (log entry 3), and whether a reset edge had come stands in the
state (entry 16). (20_memory.md section 2, rule R30, 60_exceptions.md section 1, rule R96, 70_reset_and_hazards.md
sections 2 and 3, rules R108, R109 and R111, 95_test_vectors.md section L3.) -/
def Obligations.ScheduleGivesEachResultAtItsOwnStep : Prop :=
  ∀ (s : State) (k : Nat) (x : Inputs), s.pending[k]? = some x →
    (s.cfg.pipelined = true → x.rst = false ∧ x.inValid = true) →
    ∃ t, Host.Core.run Sys2Proof.core (k + 1) s = .next t ∧ t.inp = x ∧ t.cfg = s.cfg ∧ t.pending = s.pending.drop (k + 1) ∧
      IsCombOf s.cfg x t.out ∧
      (s.cfg.pipelined = true → (s.resetSeen = true ∨ ∃ y ∈ s.pending.take k, y.rst = true) → t.outValid = true)

/-- From every state that meets the invariant, a step gives a state that meets it: at most 27 characters of text; and,
whenever a consumer may read the outputs, err, mnem and form fit ok, the fields fit each other, simm and jtarget are
computed from them, and rendering ok, mnem, form and the fields gives the text. In the pipelined variant a consumer
may read them while out_valid is 1 once a reset edge has come, since before out_valid is unspecified (R107, R108);
that this stands in the state is the model's choice (log entry 16). (10_state.md section 1, rule R11, 10_state.md
section 4, rule R22, 60_exceptions.md section 1, rule R94.) -/
def Obligations.OutputsAgreeAfterEveryStep : Prop :=
  ∀ s t : State, Inv s → step s = .next t → Inv t

/-- State.reset has out_valid 0, a reset edge behind it and an empty schedule, and meets the invariant of
OutputsAgreeAfterEveryStep. That it is the pipelined variant with the ports at 0 and nothing presented is the model's
choice (log entries 1 and 4), and so is holding the reset edge in the state (entry 16). (70_reset_and_hazards.md
section 1, rule R107.) -/
def Obligations.OutputsAgreeAtReset : Prop :=
  Inv State.reset ∧ State.reset.outValid = false ∧ State.reset.resetSeen = true ∧ State.reset.pending = []

/-- Whenever a step answers a next state: the parameters are as before, the ports hold what was presented, the schedule is
shorter by its first entry, out_valid in the combinational variant is as before, and the count of draws rises by one
at an edge of the pipelined variant that is a reset edge or comes before the first reset edge, and else stays. That
the parameters stand in the state (log entry 1), the schedule (entry 3), the count of draws (entries 5 and 16), and an
out_valid of the combinational variant, left as it is (entry 7), are the model's choices. (00_scope.md section 4,
10_state.md section 4, 70_reset_and_hazards.md section 1, 92_eei_decisions.md D1 and D2.) -/
def Obligations.StepsNeverChangeTheParameters : Prop :=
  ∀ s t : State, step s = .next t →
    t.cfg = s.cfg ∧ t.inp = nextInputs s ∧ t.pending = s.pending.tail ∧
    (s.cfg.pipelined = false → t.outValid = s.outValid) ∧
    t.draws = s.draws + (if s.cfg.pipelined = true ∧ ((nextInputs s).rst = true ∨ s.resetSeen = false) then 1 else 0)

/-- For every state and every two instructions: if running them gives states with the same text, they are the same
instruction, operands included. (00_scope.md section 6, 10_state.md section 2, 30_encoding.md section 5.) -/
def Obligations.TextDeterminesTheInstruction : Prop :=
  ∀ (s t t' : State) (i i' : Instr), exec i s = .next t → exec i' s = .next t' → t.out.text = t'.out.text → i = i'

/-- In the pipelined variant before its first reset edge, as long as every entry presented has rst 0: after k + 1 steps no
reset edge has come yet, and out_valid is the free value of that step, whatever the words and in_valid were. From
every state, a step leaves a reset edge having come exactly if one had come before or the step is an edge with rst 1
in the pipelined variant. Nothing can be proved of the free value; that one is drawn afresh at each such edge, and
that the state holds the count and whether a reset edge has come, is the model's form of any value (log entries 5 and
16), as the schedule in the state is its form of what the host presents (entry 3). (70_reset_and_hazards.md sections 1
and 2, rules R107 and R108, 92_eei_decisions.md D17, 93_implementation_defined.md I3.) -/
def Obligations.OutValidIsUnspecifiedUntilTheFirstResetEdge : Prop :=
  (∀ (s : State) (k : Nat), s.cfg.pipelined = true → s.resetSeen = false → k < s.pending.length →
    (∀ x ∈ s.pending.take (k + 1), x.rst = false) →
    ∃ t, Host.Core.run Sys2Proof.core (k + 1) s = .next t ∧ t.resetSeen = false ∧
      t.outValid = Config.freeOutValid (s.draws + k) ∧ t.draws = s.draws + k + 1 ∧ t.pending = s.pending.drop (k + 1)) ∧
  (∀ s t : State, step s = .next t →
    t.resetSeen = (s.resetSeen || (s.cfg.pipelined && (nextInputs s).rst)))
end

