-- ==== Sys2Proof/Laws/Decode.lean ====
section
/-! SUPPORT. The field extractor on the encoder's layouts (R34 to R37), and the dispatch from known fields (R39 to R41). -/

namespace Sys2Proof

theorem field_eq_extractLsb' (w : Word) (offset width : Nat) : field w offset width = w.extractLsb' offset width := rfl

@[simp] theorem opcodeOf_encodeR (rs rt rd : RegIndex) (shamt : BitVec 5) (funct : BitVec 6) :
    opcodeOf (encodeR rs rt rd shamt funct) = 0#6 := by
  rw [opcodeOf, encodeR, field_eq_extractLsb', BitVec.extractLsb'_append_eq_of_le (by decide), BitVec.extractLsb'_append_eq_of_le (by decide), BitVec.extractLsb'_append_eq_of_le (by decide), BitVec.extractLsb'_append_eq_of_le (by decide), BitVec.extractLsb'_append_eq_of_le (by decide)]
  simp
@[simp] theorem rsOf_encodeR (rs rt rd : RegIndex) (shamt : BitVec 5) (funct : BitVec 6) :
    rsOf (encodeR rs rt rd shamt funct) = rs := by
  rw [rsOf, encodeR, field_eq_extractLsb', BitVec.extractLsb'_append_eq_of_le (by decide), BitVec.extractLsb'_append_eq_of_le (by decide), BitVec.extractLsb'_append_eq_of_le (by decide), BitVec.extractLsb'_append_eq_of_le (by decide), BitVec.extractLsb'_append_eq_of_add_le (by decide)]
  simp
@[simp] theorem rtOf_encodeR (rs rt rd : RegIndex) (shamt : BitVec 5) (funct : BitVec 6) :
    rtOf (encodeR rs rt rd shamt funct) = rt := by
  rw [rtOf, encodeR, field_eq_extractLsb', BitVec.extractLsb'_append_eq_of_le (by decide), BitVec.extractLsb'_append_eq_of_le (by decide), BitVec.extractLsb'_append_eq_of_le (by decide), BitVec.extractLsb'_append_eq_of_add_le (by decide)]
  simp
@[simp] theorem rdOf_encodeR (rs rt rd : RegIndex) (shamt : BitVec 5) (funct : BitVec 6) :
    rdOf (encodeR rs rt rd shamt funct) = rd := by
  rw [rdOf, encodeR, field_eq_extractLsb', BitVec.extractLsb'_append_eq_of_le (by decide), BitVec.extractLsb'_append_eq_of_le (by decide), BitVec.extractLsb'_append_eq_of_add_le (by decide)]
  simp
@[simp] theorem shamtOf_encodeR (rs rt rd : RegIndex) (shamt : BitVec 5) (funct : BitVec 6) :
    shamtOf (encodeR rs rt rd shamt funct) = shamt := by
  rw [shamtOf, encodeR, field_eq_extractLsb', BitVec.extractLsb'_append_eq_of_le (by decide), BitVec.extractLsb'_append_eq_of_add_le (by decide)]
  simp
@[simp] theorem functOf_encodeR (rs rt rd : RegIndex) (shamt : BitVec 5) (funct : BitVec 6) :
    functOf (encodeR rs rt rd shamt funct) = funct := by
  rw [functOf, encodeR, field_eq_extractLsb', BitVec.extractLsb'_append_eq_of_add_le (by decide)]
  simp

@[simp] theorem opcodeOf_encodeI (op : BitVec 6) (rs rt : RegIndex) (imm : BitVec 16) :
    opcodeOf (encodeI op rs rt imm) = op := by
  rw [opcodeOf, encodeI, field_eq_extractLsb', BitVec.extractLsb'_append_eq_of_le (by decide), BitVec.extractLsb'_append_eq_of_le (by decide), BitVec.extractLsb'_append_eq_of_le (by decide)]
  simp
@[simp] theorem rsOf_encodeI (op : BitVec 6) (rs rt : RegIndex) (imm : BitVec 16) :
    rsOf (encodeI op rs rt imm) = rs := by
  rw [rsOf, encodeI, field_eq_extractLsb', BitVec.extractLsb'_append_eq_of_le (by decide), BitVec.extractLsb'_append_eq_of_le (by decide), BitVec.extractLsb'_append_eq_of_add_le (by decide)]
  simp
@[simp] theorem rtOf_encodeI (op : BitVec 6) (rs rt : RegIndex) (imm : BitVec 16) :
    rtOf (encodeI op rs rt imm) = rt := by
  rw [rtOf, encodeI, field_eq_extractLsb', BitVec.extractLsb'_append_eq_of_le (by decide), BitVec.extractLsb'_append_eq_of_add_le (by decide)]
  simp
@[simp] theorem imm16Of_encodeI (op : BitVec 6) (rs rt : RegIndex) (imm : BitVec 16) :
    imm16Of (encodeI op rs rt imm) = imm := by
  rw [imm16Of, encodeI, field_eq_extractLsb', BitVec.extractLsb'_append_eq_of_add_le (by decide)]
  simp

@[simp] theorem opcodeOf_encodeJ (op : BitVec 6) (addr : BitVec 26) :
    opcodeOf (encodeJ op addr) = op := by
  rw [opcodeOf, encodeJ, field_eq_extractLsb', BitVec.extractLsb'_append_eq_of_le (by decide)]
  simp
@[simp] theorem addr26Of_encodeJ (op : BitVec 6) (addr : BitVec 26) :
    addr26Of (encodeJ op addr) = addr := by
  rw [addr26Of, encodeJ, field_eq_extractLsb', BitVec.extractLsb'_append_eq_of_add_le (by decide)]
  simp

/-! ### Dispatch -/

theorem decode_of_regReg (w : Word) (h : opcodeOf w = 0) : decode w = decodeRegReg w := by
  rw [decode, h]
  rfl

theorem decode_of_regImm (w : Word) (h : opcodeOf w = 1) : decode w = decodeRegImm w := by
  rw [decode, h]
  rfl

/-- An opcode-0 word whose function code the table has is that mnemonic's instruction (R40). -/
theorem decode_of_funct (w : Word) (m : Mnemonic) (h : opcodeOf w = 0) (hm : functionCodeTable.lookup (functOf w) = some m) :
    decode w = .ok (assemble m w) := by
  rw [decode_of_regReg w h, decodeRegReg, hm]

/-- An opcode-1 word whose selector the table has is that mnemonic's instruction (R41). -/
theorem decode_of_selector (w : Word) (m : Mnemonic) (h : opcodeOf w = 1) (hm : selectorTable.lookup (rtOf w) = some m) :
    decode w = .ok (assemble m w) := by
  rw [decode_of_regImm w h, decodeRegImm, hm]

/-- A word whose opcode the table gives a mnemonic is that mnemonic's instruction (R39). -/
theorem decode_of_opcode (w : Word) (m : Mnemonic) (hm : opcodeTable.lookup (opcodeOf w) = some (.mnemonic m)) :
    decode w = .ok (assemble m w) := by
  rw [decode, hm]

/-- The three ways a word is recognised: say once what the dispatch can answer (R39 to R41). -/
theorem decode_ok_cases {w : Word} {i : Instr} (h : decode w = .ok i) :
    ∃ m, i = assemble m w ∧
      ((opcodeTable.lookup (opcodeOf w) = some .regReg ∧ functionCodeTable.lookup (functOf w) = some m) ∨
       (opcodeTable.lookup (opcodeOf w) = some .regImm ∧ selectorTable.lookup (rtOf w) = some m) ∨
       opcodeTable.lookup (opcodeOf w) = some (.mnemonic m)) := by
  unfold decode at h
  split at h
  · rename_i ho
    unfold decodeRegReg at h
    split at h
    · rename_i m hm
      exact ⟨m, by cases h; rfl, .inl ⟨ho, hm⟩⟩
    · cases h
  · rename_i ho
    unfold decodeRegImm at h
    split at h
    · rename_i m hm
      exact ⟨m, by cases h; rfl, .inr (.inl ⟨ho, hm⟩)⟩
    · cases h
  · rename_i m ho
    exact ⟨m, by cases h; rfl, .inr (.inr ho)⟩
  · cases h

theorem assemble_mnemonic (m : Mnemonic) (w : Word) : (assemble m w).mnemonic = m := by
  cases m <;> rfl

end Sys2Proof
end

