-- ==== Sys2Proof/Laws/Operands.lean ====
section
/-! SUPPORT. The result text for each number of operands (R6, R7), in the model's rendering and in the claims' `line`. -/

namespace Sys2Proof.Machine

@[simp] theorem renderOk_none (m : Mnemonic) (f : Form) : renderOk ⟨m, f, []⟩ = mnemonicText m := rfl

@[simp] theorem renderOk_one (m : Mnemonic) (f : Form) (a : Text) : renderOk ⟨m, f, [a]⟩ = mnemonicText m ++ ' ' :: a := rfl

@[simp] theorem renderOk_two (m : Mnemonic) (f : Form) (a b : Text) :
    renderOk ⟨m, f, [a, b]⟩ = mnemonicText m ++ ' ' :: (a ++ ',' :: b) := rfl

@[simp] theorem renderOk_three (m : Mnemonic) (f : Form) (a b c : Text) :
    renderOk ⟨m, f, [a, b, c]⟩ = mnemonicText m ++ ' ' :: (a ++ ',' :: (b ++ ',' :: c)) := rfl

@[simp] theorem line_none (name : Text) : Safety.line name [] = name := rfl

@[simp] theorem line_one (name a : Text) : Safety.line name [a] = name ++ ' ' :: a := by
  simp [Safety.line, List.intercalate]

@[simp] theorem line_two (name a b : Text) : Safety.line name [a, b] = name ++ ' ' :: (a ++ ',' :: b) := by
  simp [Safety.line, List.intercalate]

@[simp] theorem line_three (name a b c : Text) :
    Safety.line name [a, b, c] = name ++ ' ' :: (a ++ ',' :: (b ++ ',' :: c)) := by
  simp [Safety.line, List.intercalate]

/-- `sext16` is the two's complement reading of the field (R38, spec/00_scope.md section 5). -/
theorem sext16_eq_toInt (v : BitVec 16) : sext16 v = v.toInt := by
  rw [BitVec.toInt_eq_msb_cond, sext16]
  simp

end Sys2Proof.Machine
end

