-- ==== Sys2Proof/Laws/State.lean ====
section
/-! SUPPORT. One lemma for each field after each update of the state, so that no proof unfolds a record update. -/

namespace Sys2Proof.Machine

@[simp] theorem State.setInp_cfg (s : State) (x : Inputs) : (s.setInp x).cfg = s.cfg := rfl
@[simp] theorem State.setInp_inp (s : State) (x : Inputs) : (s.setInp x).inp = x := rfl
@[simp] theorem State.setInp_pending (s : State) (x : Inputs) : (s.setInp x).pending = s.pending := rfl
@[simp] theorem State.setInp_outValid (s : State) (x : Inputs) : (s.setInp x).outValid = s.outValid := rfl
@[simp] theorem State.setInp_out (s : State) (x : Inputs) : (s.setInp x).out = s.out := rfl
@[simp] theorem State.setInp_resetSeen (s : State) (x : Inputs) : (s.setInp x).resetSeen = s.resetSeen := rfl
@[simp] theorem State.setInp_draws (s : State) (x : Inputs) : (s.setInp x).draws = s.draws := rfl

@[simp] theorem State.setPending_cfg (s : State) (p : List Inputs) : (s.setPending p).cfg = s.cfg := rfl
@[simp] theorem State.setPending_inp (s : State) (p : List Inputs) : (s.setPending p).inp = s.inp := rfl
@[simp] theorem State.setPending_pending (s : State) (p : List Inputs) : (s.setPending p).pending = p := rfl
@[simp] theorem State.setPending_outValid (s : State) (p : List Inputs) : (s.setPending p).outValid = s.outValid := rfl
@[simp] theorem State.setPending_out (s : State) (p : List Inputs) : (s.setPending p).out = s.out := rfl
@[simp] theorem State.setPending_resetSeen (s : State) (p : List Inputs) : (s.setPending p).resetSeen = s.resetSeen := rfl
@[simp] theorem State.setPending_draws (s : State) (p : List Inputs) : (s.setPending p).draws = s.draws := rfl

@[simp] theorem State.setOutValid_cfg (s : State) (b : Bool) : (s.setOutValid b).cfg = s.cfg := rfl
@[simp] theorem State.setOutValid_inp (s : State) (b : Bool) : (s.setOutValid b).inp = s.inp := rfl
@[simp] theorem State.setOutValid_pending (s : State) (b : Bool) : (s.setOutValid b).pending = s.pending := rfl
@[simp] theorem State.setOutValid_outValid (s : State) (b : Bool) : (s.setOutValid b).outValid = b := rfl
@[simp] theorem State.setOutValid_out (s : State) (b : Bool) : (s.setOutValid b).out = s.out := rfl
@[simp] theorem State.setOutValid_resetSeen (s : State) (b : Bool) : (s.setOutValid b).resetSeen = s.resetSeen := rfl
@[simp] theorem State.setOutValid_draws (s : State) (b : Bool) : (s.setOutValid b).draws = s.draws := rfl

@[simp] theorem State.setOut_cfg (s : State) (o : Outputs) : (s.setOut o).cfg = s.cfg := rfl
@[simp] theorem State.setOut_inp (s : State) (o : Outputs) : (s.setOut o).inp = s.inp := rfl
@[simp] theorem State.setOut_pending (s : State) (o : Outputs) : (s.setOut o).pending = s.pending := rfl
@[simp] theorem State.setOut_outValid (s : State) (o : Outputs) : (s.setOut o).outValid = s.outValid := rfl
@[simp] theorem State.setOut_out (s : State) (o : Outputs) : (s.setOut o).out = o := rfl
@[simp] theorem State.setOut_resetSeen (s : State) (o : Outputs) : (s.setOut o).resetSeen = s.resetSeen := rfl
@[simp] theorem State.setOut_draws (s : State) (o : Outputs) : (s.setOut o).draws = s.draws := rfl

@[simp] theorem State.setResetSeen_cfg (s : State) (b : Bool) : (s.setResetSeen b).cfg = s.cfg := rfl
@[simp] theorem State.setResetSeen_inp (s : State) (b : Bool) : (s.setResetSeen b).inp = s.inp := rfl
@[simp] theorem State.setResetSeen_pending (s : State) (b : Bool) : (s.setResetSeen b).pending = s.pending := rfl
@[simp] theorem State.setResetSeen_outValid (s : State) (b : Bool) : (s.setResetSeen b).outValid = s.outValid := rfl
@[simp] theorem State.setResetSeen_out (s : State) (b : Bool) : (s.setResetSeen b).out = s.out := rfl
@[simp] theorem State.setResetSeen_resetSeen (s : State) (b : Bool) : (s.setResetSeen b).resetSeen = b := rfl
@[simp] theorem State.setResetSeen_draws (s : State) (b : Bool) : (s.setResetSeen b).draws = s.draws := rfl

@[simp] theorem State.setDraws_cfg (s : State) (n : Nat) : (s.setDraws n).cfg = s.cfg := rfl
@[simp] theorem State.setDraws_inp (s : State) (n : Nat) : (s.setDraws n).inp = s.inp := rfl
@[simp] theorem State.setDraws_pending (s : State) (n : Nat) : (s.setDraws n).pending = s.pending := rfl
@[simp] theorem State.setDraws_outValid (s : State) (n : Nat) : (s.setDraws n).outValid = s.outValid := rfl
@[simp] theorem State.setDraws_out (s : State) (n : Nat) : (s.setDraws n).out = s.out := rfl
@[simp] theorem State.setDraws_resetSeen (s : State) (n : Nat) : (s.setDraws n).resetSeen = s.resetSeen := rfl
@[simp] theorem State.setDraws_draws (s : State) (n : Nat) : (s.setDraws n).draws = n := rfl

/-- The text port holds at most TEXT_MAX characters in an unspecified payload too (R107, I2). -/
theorem Outputs.free_text_length_le (n : Nat) : (Outputs.free n).text.length ≤ Config.textMax :=
  (List.length_take_le _ _)

end Sys2Proof.Machine
end

