-- ==== Sys2Proof/Laws/Ops.lean ====
section
/-! SUPPORT. What each shared operation of the machine does, field by field, and what a step can do, said once. -/

namespace Sys2Proof.Machine

/-! ### Driving the outputs -/

@[simp] theorem writeOutValid_cfg (b : Bool) (s : State) : (writeOutValid b s).cfg = s.cfg := by
  unfold writeOutValid; split <;> rfl
@[simp] theorem writeOutValid_inp (b : Bool) (s : State) : (writeOutValid b s).inp = s.inp := by
  unfold writeOutValid; split <;> rfl
@[simp] theorem writeOutValid_pending (b : Bool) (s : State) : (writeOutValid b s).pending = s.pending := by
  unfold writeOutValid; split <;> rfl
@[simp] theorem writeOutValid_out (b : Bool) (s : State) : (writeOutValid b s).out = s.out := by
  unfold writeOutValid; split <;> rfl
@[simp] theorem writeOutValid_resetSeen (b : Bool) (s : State) : (writeOutValid b s).resetSeen = s.resetSeen := by
  unfold writeOutValid; split <;> rfl
@[simp] theorem writeOutValid_outValid (b : Bool) (s : State) :
    (writeOutValid b s).outValid = if s.resetSeen then b else Config.freeOutValid s.draws := by
  unfold writeOutValid; split <;> rfl
@[simp] theorem writeOutValid_draws (b : Bool) (s : State) :
    (writeOutValid b s).draws = if s.resetSeen then s.draws else s.draws + 1 := by
  unfold writeOutValid; split <;> rfl

@[simp] theorem loadOutputs_cfg (o : Outputs) (s : State) : (loadOutputs o s).cfg = s.cfg := by
  unfold loadOutputs; split <;> simp
@[simp] theorem loadOutputs_inp (o : Outputs) (s : State) : (loadOutputs o s).inp = s.inp := by
  unfold loadOutputs; split <;> simp
@[simp] theorem loadOutputs_pending (o : Outputs) (s : State) : (loadOutputs o s).pending = s.pending := by
  unfold loadOutputs; split <;> simp
@[simp] theorem loadOutputs_out (o : Outputs) (s : State) : (loadOutputs o s).out = o := by
  unfold loadOutputs; split <;> simp
@[simp] theorem loadOutputs_resetSeen (o : Outputs) (s : State) : (loadOutputs o s).resetSeen = s.resetSeen := by
  unfold loadOutputs; split <;> simp
@[simp] theorem loadOutputs_draws (o : Outputs) (s : State) :
    (loadOutputs o s).draws = s.draws + if Safety.Unreset s then 1 else 0 := by
  unfold loadOutputs Safety.Unreset
  cases s.cfg.pipelined <;> cases h : s.resetSeen <;> simp [h]

/-- `out_valid` after a decode: 1 once a reset edge has come (R21), the next free value before (R107), as it was in the
combinational variant. -/
@[simp] theorem loadOutputs_outValid (o : Outputs) (s : State) : (loadOutputs o s).outValid =
    if s.cfg.pipelined then s.resetSeen || Config.freeOutValid s.draws else s.outValid := by
  unfold loadOutputs; cases s.cfg.pipelined <;> cases h : s.resetSeen <;> simp [h]

theorem onlyOutputsChange_loadOutputs (o : Outputs) (s : State) : Safety.OnlyOutputsChange s (loadOutputs o s) := by
  simp [Safety.OnlyOutputsChange]

theorem validAfterDecode_loadOutputs (o : Outputs) (s : State) : Safety.ValidAfterDecode s (loadOutputs o s) := by
  constructor <;> intros <;> simp [*]

theorem drivenBy_okOutputs (c : Config) (x : Inputs) (d : DecodedInstruction) : Safety.DrivenBy c x (okOutputs c x d) :=
  ⟨rfl, rfl, rfl, rfl, rfl, rfl, rfl, rfl, rfl, rfl, rfl⟩

theorem drivenBy_failOutputs (c : Config) (x : Inputs) (k : FailKind) : Safety.DrivenBy c x (failOutputs c x k) :=
  ⟨rfl, rfl, rfl, rfl, rfl, rfl, rfl, rfl, rfl, rfl, rfl⟩

@[simp] theorem okOutputs_ok (c : Config) (x : Inputs) (d : DecodedInstruction) : (okOutputs c x d).ok = true := rfl
@[simp] theorem okOutputs_err (c : Config) (x : Inputs) (d : DecodedInstruction) : (okOutputs c x d).err = 0 := rfl
@[simp] theorem okOutputs_mnem (c : Config) (x : Inputs) (d : DecodedInstruction) :
    (okOutputs c x d).mnem = mnemonicId d.mnemonic := rfl
@[simp] theorem okOutputs_form (c : Config) (x : Inputs) (d : DecodedInstruction) : (okOutputs c x d).form = formCode d.form := rfl
@[simp] theorem okOutputs_text (c : Config) (x : Inputs) (d : DecodedInstruction) : (okOutputs c x d).text = renderOk d := rfl

@[simp] theorem failOutputs_ok (c : Config) (x : Inputs) (k : FailKind) : (failOutputs c x k).ok = false := rfl
@[simp] theorem failOutputs_err (c : Config) (x : Inputs) (k : FailKind) : (failOutputs c x k).err = failCode k := rfl
@[simp] theorem failOutputs_mnem (c : Config) (x : Inputs) (k : FailKind) : (failOutputs c x k).mnem = 0 := rfl
@[simp] theorem failOutputs_form (c : Config) (x : Inputs) (k : FailKind) : (failOutputs c x k).form = 0 := rfl
@[simp] theorem failOutputs_text (c : Config) (x : Inputs) (k : FailKind) : (failOutputs c x k).text = renderFail := rfl

/-- Returning `Ok` gives this result, in the sense the statements use. -/
theorem returnOk_givesOk (d : DecodedInstruction) (s : State) : ∃ t, returnOk d s = .next t ∧
    Safety.GivesOk s t (mnemonicId d.mnemonic) (formCode d.form) (renderOk d) :=
  ⟨_, rfl, by simp, by simp, by simp, by simp, by simp, by simpa using drivenBy_okOutputs _ _ _,
    onlyOutputsChange_loadOutputs _ _, validAfterDecode_loadOutputs _ _⟩

/-! ### Edges -/

@[simp] theorem resetEdge_cfg (s : State) : (resetEdge s).cfg = s.cfg := rfl
@[simp] theorem resetEdge_inp (s : State) : (resetEdge s).inp = s.inp := rfl
@[simp] theorem resetEdge_pending (s : State) : (resetEdge s).pending = s.pending := rfl
@[simp] theorem resetEdge_outValid (s : State) : (resetEdge s).outValid = false := rfl
@[simp] theorem resetEdge_out (s : State) : (resetEdge s).out = Outputs.free s.draws := rfl
@[simp] theorem resetEdge_resetSeen (s : State) : (resetEdge s).resetSeen = true := rfl
@[simp] theorem resetEdge_draws (s : State) : (resetEdge s).draws = s.draws + 1 := rfl

@[simp] theorem idleEdge_cfg (s : State) : (idleEdge s).cfg = s.cfg := writeOutValid_cfg _ _
@[simp] theorem idleEdge_inp (s : State) : (idleEdge s).inp = s.inp := writeOutValid_inp _ _
@[simp] theorem idleEdge_pending (s : State) : (idleEdge s).pending = s.pending := writeOutValid_pending _ _
@[simp] theorem idleEdge_out (s : State) : (idleEdge s).out = s.out := writeOutValid_out _ _
@[simp] theorem idleEdge_resetSeen (s : State) : (idleEdge s).resetSeen = s.resetSeen := writeOutValid_resetSeen _ _
@[simp] theorem idleEdge_outValid (s : State) :
    (idleEdge s).outValid = (!s.resetSeen && Config.freeOutValid s.draws) := by
  simp [idleEdge]
@[simp] theorem idleEdge_draws (s : State) :
    (idleEdge s).draws = if s.resetSeen then s.draws else s.draws + 1 := writeOutValid_draws _ _

/-! ### Presenting the inputs -/

@[simp] theorem presentInputs_cfg (s : State) : (presentInputs s).cfg = s.cfg := by
  unfold presentInputs; split <;> rfl
@[simp] theorem presentInputs_outValid (s : State) : (presentInputs s).outValid = s.outValid := by
  unfold presentInputs; split <;> rfl
@[simp] theorem presentInputs_out (s : State) : (presentInputs s).out = s.out := by
  unfold presentInputs; split <;> rfl
@[simp] theorem presentInputs_resetSeen (s : State) : (presentInputs s).resetSeen = s.resetSeen := by
  unfold presentInputs; split <;> rfl
@[simp] theorem presentInputs_draws (s : State) : (presentInputs s).draws = s.draws := by
  unfold presentInputs; split <;> rfl
@[simp] theorem presentInputs_inp (s : State) : (presentInputs s).inp = Safety.nextInputs s := by
  unfold presentInputs Safety.nextInputs
  split <;> rename_i h <;> simp [h]
@[simp] theorem presentInputs_pending (s : State) : (presentInputs s).pending = s.pending.tail := by
  unfold presentInputs
  split <;> rename_i h <;> simp [h]

/-- Presenting the inputs does not bring the first reset edge. -/
@[simp] theorem unreset_presentInputs (s : State) : Safety.Unreset (presentInputs s) ↔ Safety.Unreset s := by
  simp [Safety.Unreset]

/-! ### A step -/

/-- Every meaning is `returnOk` of some decoded instruction of its own mnemonic, in the form R48 gives it. -/
theorem exec_eq_returnOk (i : Instr) (s : State) :
    ∃ d : DecodedInstruction, d.mnemonic = i.mnemonic ∧ d.form = formOf i.mnemonic ∧ exec i s = returnOk d s := by
  cases i <;> exact ⟨_, rfl, rfl, rfl⟩

/-- Decoding the word at the ports loads either `Ok` outputs or `Fail` outputs, and does nothing else. -/
theorem decodeInputs_cases (s : State) :
    (∃ i d, decode s.inp.word = .ok i ∧ d.mnemonic = i.mnemonic ∧ d.form = formOf i.mnemonic ∧ exec i s = returnOk d s ∧
      decodeInputs s = .next (loadOutputs (okOutputs s.cfg s.inp d) s)) ∨
    (∃ k, decode s.inp.word = .fail k ∧ decodeInputs s = .next (loadOutputs (failOutputs s.cfg s.inp k) s)) := by
  unfold decodeInputs
  cases h : decode s.inp.word with
  | ok i =>
    obtain ⟨d, hm, hf, he⟩ := exec_eq_returnOk i s
    exact .inl ⟨i, d, rfl, hm, hf, he, he⟩
  | fail k => exact .inr ⟨k, rfl, rfl⟩

theorem stepAction_eq_load_iff (c : Config) (x : Inputs) :
    stepAction c x = .load ↔ (c.pipelined = true → x.rst = false ∧ x.inValid = true) := by
  unfold stepAction
  cases c.pipelined <;> cases x.rst <;> cases x.inValid <;> simp

theorem step_of_load (s : State) (h : stepAction s.cfg (Safety.nextInputs s) = .load) :
    step s = decodeInputs (presentInputs s) := by
  unfold step actOnInputs
  rw [presentInputs_cfg, presentInputs_inp, h]

theorem step_of_resetEdge (s : State) (h : stepAction s.cfg (Safety.nextInputs s) = .resetEdge) :
    step s = .next (resetEdge (presentInputs s)) := by
  unfold step actOnInputs
  rw [presentInputs_cfg, presentInputs_inp, h]

theorem step_of_idleEdge (s : State) (h : stepAction s.cfg (Safety.nextInputs s) = .idleEdge) :
    step s = .next (idleEdge (presentInputs s)) := by
  unfold step actOnInputs
  rw [presentInputs_cfg, presentInputs_inp, h]

/-- When the next step decodes, it is the decode of what has been presented (R17, R21). -/
theorem step_of_decodes {s : State} (h : Safety.Decodes s) : step s = decodeInputs (presentInputs s) :=
  step_of_load s ((stepAction_eq_load_iff _ _).2 h)

/-- Everything a step can do: load the outputs of an instruction or of a failure, a reset edge, or an idle edge. -/
theorem step_cases {s t : State} (h : step s = .next t) :
    (Safety.Decodes s ∧
      ((∃ i d, decode (Safety.nextInputs s).word = .ok i ∧ d.mnemonic = i.mnemonic ∧ d.form = formOf i.mnemonic ∧
          exec i (presentInputs s) = returnOk d (presentInputs s) ∧
          t = loadOutputs (okOutputs s.cfg (Safety.nextInputs s) d) (presentInputs s)) ∨
       (∃ k, decode (Safety.nextInputs s).word = .fail k ∧
          t = loadOutputs (failOutputs s.cfg (Safety.nextInputs s) k) (presentInputs s)))) ∨
    (s.cfg.pipelined = true ∧ (Safety.nextInputs s).rst = true ∧ t = resetEdge (presentInputs s)) ∨
    (s.cfg.pipelined = true ∧ (Safety.nextInputs s).rst = false ∧ (Safety.nextInputs s).inValid = false ∧
      t = idleEdge (presentInputs s)) := by
  cases ha : stepAction s.cfg (Safety.nextInputs s) with
  | load =>
    have hd : Safety.Decodes s := (stepAction_eq_load_iff _ _).1 ha
    rw [step_of_load s ha] at h
    rcases decodeInputs_cases (presentInputs s) with ⟨i, d, h1, h2, h3, h4, h5⟩ | ⟨k, h1, h2⟩
    · rw [h5] at h
      cases h
      exact .inl ⟨hd, .inl ⟨i, d, by simpa using h1, h2, h3, h4, by simp⟩⟩
    · rw [h2] at h
      cases h
      exact .inl ⟨hd, .inr ⟨k, by simpa using h1, by simp⟩⟩
  | resetEdge =>
    rw [step_of_resetEdge s ha] at h
    cases h
    unfold stepAction at ha
    split at ha <;> simp_all
    split at ha <;> simp_all
  | idleEdge =>
    rw [step_of_idleEdge s ha] at h
    cases h
    unfold stepAction at ha
    split at ha <;> simp_all
    split at ha <;> simp_all

theorem run_succ (M : Host.Core) (k : Nat) {s t : M.State} (h : M.step s = .next t) : M.run (k + 1) s = M.run k t := by
  rw [Host.Core.run, h]

/-- A run whose first step answers `t` goes on from `t`. -/
theorem run_succ_of_step {s t : State} (k : Nat) (h : step s = .next t) :
    Host.Core.run Sys2Proof.core (k + 1) s = Host.Core.run Sys2Proof.core k t := run_succ Sys2Proof.core k h

end Sys2Proof.Machine
end

