-- ==== Sys2Proof/Laws/PerInstr.lean ====
section
/-! SUPPORT. Per-instruction facts about the instructions as syntax. Family FixedBits: the word of an instruction carries the
fixed bits its row of spec/opcode_table.json lists under "fixed". -/

namespace Sys2Proof.Laws.FixedBits

/-- The fixed bits of a row: the opcode, and the function code or the `rt` selector where the row fixes one. -/
structure Fixed where
  /-- Bits 31 to 26. -/
  opcode : BitVec 6
  /-- Bits 5 to 0, where the row fixes them. -/
  funct : Option (BitVec 6)
  /-- Bits 20 to 16, where the row fixes them. -/
  selector : Option (BitVec 5)

/-- The row's fixed bits. -/
def fixedBits : Mnemonic → Fixed
  | .sll => ⟨0, some 0, none⟩
  | .srl => ⟨0, some 2, none⟩
  | .sra => ⟨0, some 3, none⟩
  | .jr => ⟨0, some 8, none⟩
  | .jalr => ⟨0, some 9, none⟩
  | .syscall => ⟨0, some 12, none⟩
  | .break_ => ⟨0, some 13, none⟩
  | .mfhi => ⟨0, some 16, none⟩
  | .mthi => ⟨0, some 17, none⟩
  | .mflo => ⟨0, some 18, none⟩
  | .mtlo => ⟨0, some 19, none⟩
  | .mult => ⟨0, some 24, none⟩
  | .div => ⟨0, some 26, none⟩
  | .add => ⟨0, some 32, none⟩
  | .sub => ⟨0, some 34, none⟩
  | .and => ⟨0, some 36, none⟩
  | .or => ⟨0, some 37, none⟩
  | .xor => ⟨0, some 38, none⟩
  | .nor => ⟨0, some 39, none⟩
  | .slt => ⟨0, some 42, none⟩
  | .bltz => ⟨1, none, some 0⟩
  | .bgez => ⟨1, none, some 1⟩
  | .j => ⟨2, none, none⟩
  | .jal => ⟨3, none, none⟩
  | .lui => ⟨15, none, none⟩
  | .lb => ⟨32, none, none⟩
  | .lw => ⟨35, none, none⟩
  | .sb => ⟨40, none, none⟩
  | .sw => ⟨43, none, none⟩
  | .beq => ⟨4, none, none⟩
  | .bne => ⟨5, none, none⟩
  | .blez => ⟨6, none, none⟩
  | .bgtz => ⟨7, none, none⟩
  | .addi => ⟨8, none, none⟩
  | .slti => ⟨10, none, none⟩
  | .andi => ⟨12, none, none⟩
  | .ori => ⟨13, none, none⟩
  | .xori => ⟨14, none, none⟩

/-- The word carries the fixed bits `x`. -/
def Carries (w : Word) (x : Fixed) : Prop :=
  opcodeOf w = x.opcode ∧ (∀ f, x.funct = some f → functOf w = f) ∧ (∀ r, x.selector = some r → rtOf w = r)

/-- The encoded instruction carries its row's fixed bits. -/
def Statement (i : Instr) : Prop := Carries (encode i) (fixedBits i.mnemonic)

theorem carries_encodeR (rs rt rd : RegIndex) (shamt : BitVec 5) (funct : BitVec 6) :
    Carries (encodeR rs rt rd shamt funct) ⟨0, some funct, none⟩ :=
  ⟨by simp, by simp, by simp⟩

theorem carries_encodeI (op : BitVec 6) (rs rt : RegIndex) (imm : BitVec 16) :
    Carries (encodeI op rs rt imm) ⟨op, none, none⟩ :=
  ⟨by simp, by simp, by simp⟩

theorem carries_encodeI_selector (op : BitVec 6) (rs rt : RegIndex) (imm : BitVec 16) :
    Carries (encodeI op rs rt imm) ⟨op, none, some rt⟩ :=
  ⟨by simp, by simp, by simp⟩

theorem carries_encodeJ (op : BitVec 6) (addr : BitVec 26) : Carries (encodeJ op addr) ⟨op, none, none⟩ :=
  ⟨by simp, by simp, by simp⟩

theorem sll (rd rt : RegIndex) (shamt : BitVec 5) : Statement (.sll rd rt shamt) := carries_encodeR _ _ _ _ _
theorem srl (rd rt : RegIndex) (shamt : BitVec 5) : Statement (.srl rd rt shamt) := carries_encodeR _ _ _ _ _
theorem sra (rd rt : RegIndex) (shamt : BitVec 5) : Statement (.sra rd rt shamt) := carries_encodeR _ _ _ _ _
theorem jr (rs : RegIndex) : Statement (.jr rs) := carries_encodeR _ _ _ _ _
theorem jalr (rs : RegIndex) : Statement (.jalr rs) := carries_encodeR _ _ _ _ _
theorem syscall : Statement (.syscall) := carries_encodeR _ _ _ _ _
theorem break_ : Statement (.break_) := carries_encodeR _ _ _ _ _
theorem mfhi (rd : RegIndex) : Statement (.mfhi rd) := carries_encodeR _ _ _ _ _
theorem mthi (rd : RegIndex) : Statement (.mthi rd) := carries_encodeR _ _ _ _ _
theorem mflo (rd : RegIndex) : Statement (.mflo rd) := carries_encodeR _ _ _ _ _
theorem mtlo (rd : RegIndex) : Statement (.mtlo rd) := carries_encodeR _ _ _ _ _
theorem mult (rs rt : RegIndex) : Statement (.mult rs rt) := carries_encodeR _ _ _ _ _
theorem div (rs rt : RegIndex) : Statement (.div rs rt) := carries_encodeR _ _ _ _ _
theorem add (rd rs rt : RegIndex) : Statement (.add rd rs rt) := carries_encodeR _ _ _ _ _
theorem sub (rd rs rt : RegIndex) : Statement (.sub rd rs rt) := carries_encodeR _ _ _ _ _
theorem and (rd rs rt : RegIndex) : Statement (.and rd rs rt) := carries_encodeR _ _ _ _ _
theorem or (rd rs rt : RegIndex) : Statement (.or rd rs rt) := carries_encodeR _ _ _ _ _
theorem xor (rd rs rt : RegIndex) : Statement (.xor rd rs rt) := carries_encodeR _ _ _ _ _
theorem nor (rd rs rt : RegIndex) : Statement (.nor rd rs rt) := carries_encodeR _ _ _ _ _
theorem slt (rd rs rt : RegIndex) : Statement (.slt rd rs rt) := carries_encodeR _ _ _ _ _
theorem bltz (rs : RegIndex) (imm16 : BitVec 16) : Statement (.bltz rs imm16) := carries_encodeI_selector _ _ _ _
theorem bgez (rs : RegIndex) (imm16 : BitVec 16) : Statement (.bgez rs imm16) := carries_encodeI_selector _ _ _ _
theorem j (addr26 : BitVec 26) : Statement (.j addr26) := carries_encodeJ _ _
theorem jal (addr26 : BitVec 26) : Statement (.jal addr26) := carries_encodeJ _ _
theorem lui (rt : RegIndex) (imm16 : BitVec 16) : Statement (.lui rt imm16) := carries_encodeI _ _ _ _
theorem lb (rt rs : RegIndex) (imm16 : BitVec 16) : Statement (.lb rt rs imm16) := carries_encodeI _ _ _ _
theorem lw (rt rs : RegIndex) (imm16 : BitVec 16) : Statement (.lw rt rs imm16) := carries_encodeI _ _ _ _
theorem sb (rt rs : RegIndex) (imm16 : BitVec 16) : Statement (.sb rt rs imm16) := carries_encodeI _ _ _ _
theorem sw (rt rs : RegIndex) (imm16 : BitVec 16) : Statement (.sw rt rs imm16) := carries_encodeI _ _ _ _
theorem beq (rt rs : RegIndex) (imm16 : BitVec 16) : Statement (.beq rt rs imm16) := carries_encodeI _ _ _ _
theorem bne (rt rs : RegIndex) (imm16 : BitVec 16) : Statement (.bne rt rs imm16) := carries_encodeI _ _ _ _
theorem blez (rt rs : RegIndex) (imm16 : BitVec 16) : Statement (.blez rt rs imm16) := carries_encodeI _ _ _ _
theorem bgtz (rt rs : RegIndex) (imm16 : BitVec 16) : Statement (.bgtz rt rs imm16) := carries_encodeI _ _ _ _
theorem addi (rt rs : RegIndex) (imm16 : BitVec 16) : Statement (.addi rt rs imm16) := carries_encodeI _ _ _ _
theorem slti (rt rs : RegIndex) (imm16 : BitVec 16) : Statement (.slti rt rs imm16) := carries_encodeI _ _ _ _
theorem andi (rt rs : RegIndex) (imm16 : BitVec 16) : Statement (.andi rt rs imm16) := carries_encodeI _ _ _ _
theorem ori (rt rs : RegIndex) (imm16 : BitVec 16) : Statement (.ori rt rs imm16) := carries_encodeI _ _ _ _
theorem xori (rt rs : RegIndex) (imm16 : BitVec 16) : Statement (.xori rt rs imm16) := carries_encodeI _ _ _ _

end Sys2Proof.Laws.FixedBits
end

