-- ==== Sys2Proof/Tests/Slice0.lean ====
section
/-! SUPPORT. Tests of the model against words written out from the layouts (R34 to R36) and the spec's own vectors
(spec/95_test_vectors.md, the family rules), the smoke test of WellFormed, and a witness for the hypotheses of every
statement of Obligations.lean that has some. -/

namespace Sys2Proof.Tests

open Sys2Proof.Machine Sys2Proof.Safety

/-- A pipelined machine after reset to which the host presents one word, valid and with no reset. -/
def given (signed : Bool) (w pc : Word) : State :=
  { State.reset with
    cfg := { pipelined := true, branchOffsetSigned := signed }
    pending := [{ word := w, pc := pc, rst := false, inValid := true }] }

/-- The outputs after one step on that word. -/
def outputsFor (signed : Bool) (w pc : Word) : Option Outputs :=
  match step (given signed w pc) with
  | .next t => if t.outValid then some t.out else none
  | _ => none

/-- The text after one step on that word, with the default offset setting. -/
def textFor (w pc : Word) : Option Text := (outputsFor true w pc).map (·.text)

/-! ### Decoding: for each constructor a word written out field by field, which also meets the selecting hypotheses of the
constructor's statement. -/

theorem test_decode_sll :
    let w : Word := 0b000000#6 ++ 0b01000#5 ++ 0b01001#5 ++ 0b01010#5 ++ 0b11111#5 ++ 0b000000#6
    opcodeOf w = 0 ∧ functOf w = 0 ∧ decode w = .ok (.sll 10 9 31) := by decide

theorem test_decode_srl :
    let w : Word := 0b000000#6 ++ 0b01000#5 ++ 0b01001#5 ++ 0b01010#5 ++ 0b11111#5 ++ 0b000010#6
    opcodeOf w = 0 ∧ functOf w = 2 ∧ decode w = .ok (.srl 10 9 31) := by decide

theorem test_decode_sra :
    let w : Word := 0b000000#6 ++ 0b01000#5 ++ 0b01001#5 ++ 0b01010#5 ++ 0b11111#5 ++ 0b000011#6
    opcodeOf w = 0 ∧ functOf w = 3 ∧ decode w = .ok (.sra 10 9 31) := by decide

theorem test_decode_jr :
    let w : Word := 0b000000#6 ++ 0b01000#5 ++ 0b01001#5 ++ 0b01010#5 ++ 0b11111#5 ++ 0b001000#6
    opcodeOf w = 0 ∧ functOf w = 8 ∧ decode w = .ok (.jr 8) := by decide

theorem test_decode_jalr :
    let w : Word := 0b000000#6 ++ 0b01000#5 ++ 0b01001#5 ++ 0b01010#5 ++ 0b11111#5 ++ 0b001001#6
    opcodeOf w = 0 ∧ functOf w = 9 ∧ decode w = .ok (.jalr 8) := by decide

theorem test_decode_syscall :
    let w : Word := 0b000000#6 ++ 0b01000#5 ++ 0b01001#5 ++ 0b01010#5 ++ 0b11111#5 ++ 0b001100#6
    opcodeOf w = 0 ∧ functOf w = 12 ∧ decode w = .ok .syscall := by decide

theorem test_decode_break :
    let w : Word := 0b000000#6 ++ 0b01000#5 ++ 0b01001#5 ++ 0b01010#5 ++ 0b11111#5 ++ 0b001101#6
    opcodeOf w = 0 ∧ functOf w = 13 ∧ decode w = .ok .break_ := by decide

theorem test_decode_mfhi :
    let w : Word := 0b000000#6 ++ 0b01000#5 ++ 0b01001#5 ++ 0b01010#5 ++ 0b11111#5 ++ 0b010000#6
    opcodeOf w = 0 ∧ functOf w = 16 ∧ decode w = .ok (.mfhi 10) := by decide

theorem test_decode_mthi :
    let w : Word := 0b000000#6 ++ 0b01000#5 ++ 0b01001#5 ++ 0b01010#5 ++ 0b11111#5 ++ 0b010001#6
    opcodeOf w = 0 ∧ functOf w = 17 ∧ decode w = .ok (.mthi 10) := by decide

theorem test_decode_mflo :
    let w : Word := 0b000000#6 ++ 0b01000#5 ++ 0b01001#5 ++ 0b01010#5 ++ 0b11111#5 ++ 0b010010#6
    opcodeOf w = 0 ∧ functOf w = 18 ∧ decode w = .ok (.mflo 10) := by decide

theorem test_decode_mtlo :
    let w : Word := 0b000000#6 ++ 0b01000#5 ++ 0b01001#5 ++ 0b01010#5 ++ 0b11111#5 ++ 0b010011#6
    opcodeOf w = 0 ∧ functOf w = 19 ∧ decode w = .ok (.mtlo 10) := by decide

theorem test_decode_mult :
    let w : Word := 0b000000#6 ++ 0b01000#5 ++ 0b01001#5 ++ 0b01010#5 ++ 0b11111#5 ++ 0b011000#6
    opcodeOf w = 0 ∧ functOf w = 24 ∧ decode w = .ok (.mult 8 9) := by decide

theorem test_decode_div :
    let w : Word := 0b000000#6 ++ 0b01000#5 ++ 0b01001#5 ++ 0b01010#5 ++ 0b11111#5 ++ 0b011010#6
    opcodeOf w = 0 ∧ functOf w = 26 ∧ decode w = .ok (.div 8 9) := by decide

theorem test_decode_add :
    let w : Word := 0b000000#6 ++ 0b01000#5 ++ 0b01001#5 ++ 0b01010#5 ++ 0b11111#5 ++ 0b100000#6
    opcodeOf w = 0 ∧ functOf w = 32 ∧ decode w = .ok (.add 10 8 9) := by decide

theorem test_decode_sub :
    let w : Word := 0b000000#6 ++ 0b01000#5 ++ 0b01001#5 ++ 0b01010#5 ++ 0b11111#5 ++ 0b100010#6
    opcodeOf w = 0 ∧ functOf w = 34 ∧ decode w = .ok (.sub 10 8 9) := by decide

theorem test_decode_and :
    let w : Word := 0b000000#6 ++ 0b01000#5 ++ 0b01001#5 ++ 0b01010#5 ++ 0b11111#5 ++ 0b100100#6
    opcodeOf w = 0 ∧ functOf w = 36 ∧ decode w = .ok (.and 10 8 9) := by decide

theorem test_decode_or :
    let w : Word := 0b000000#6 ++ 0b01000#5 ++ 0b01001#5 ++ 0b01010#5 ++ 0b11111#5 ++ 0b100101#6
    opcodeOf w = 0 ∧ functOf w = 37 ∧ decode w = .ok (.or 10 8 9) := by decide

theorem test_decode_xor :
    let w : Word := 0b000000#6 ++ 0b01000#5 ++ 0b01001#5 ++ 0b01010#5 ++ 0b11111#5 ++ 0b100110#6
    opcodeOf w = 0 ∧ functOf w = 38 ∧ decode w = .ok (.xor 10 8 9) := by decide

theorem test_decode_nor :
    let w : Word := 0b000000#6 ++ 0b01000#5 ++ 0b01001#5 ++ 0b01010#5 ++ 0b11111#5 ++ 0b100111#6
    opcodeOf w = 0 ∧ functOf w = 39 ∧ decode w = .ok (.nor 10 8 9) := by decide

theorem test_decode_slt :
    let w : Word := 0b000000#6 ++ 0b01000#5 ++ 0b01001#5 ++ 0b01010#5 ++ 0b11111#5 ++ 0b101010#6
    opcodeOf w = 0 ∧ functOf w = 42 ∧ decode w = .ok (.slt 10 8 9) := by decide

theorem test_decode_bltz :
    let w : Word := 0b000001#6 ++ 0b01000#5 ++ 0b00000#5 ++ 0b1000000000000001#16
    opcodeOf w = 1 ∧ rtOf w = 0 ∧ decode w = .ok (.bltz 8 0x8001) := by decide

theorem test_decode_bgez :
    let w : Word := 0b000001#6 ++ 0b01000#5 ++ 0b00001#5 ++ 0b1000000000000001#16
    opcodeOf w = 1 ∧ rtOf w = 1 ∧ decode w = .ok (.bgez 8 0x8001) := by decide

theorem test_decode_j :
    let w : Word := 0b000010#6 ++ 0b10000000000000000000000001#26
    opcodeOf w = 2 ∧ decode w = .ok (.j 0x2000001) := by decide

theorem test_decode_jal :
    let w : Word := 0b000011#6 ++ 0b10000000000000000000000001#26
    opcodeOf w = 3 ∧ decode w = .ok (.jal 0x2000001) := by decide

theorem test_decode_lui :
    let w : Word := 0b001111#6 ++ 0b01000#5 ++ 0b01001#5 ++ 0b1000000000000001#16
    opcodeOf w = 15 ∧ decode w = .ok (.lui 9 0x8001) := by decide

theorem test_decode_lb :
    let w : Word := 0b100000#6 ++ 0b01000#5 ++ 0b01001#5 ++ 0b1000000000000001#16
    opcodeOf w = 32 ∧ decode w = .ok (.lb 9 8 0x8001) := by decide

theorem test_decode_lw :
    let w : Word := 0b100011#6 ++ 0b01000#5 ++ 0b01001#5 ++ 0b1000000000000001#16
    opcodeOf w = 35 ∧ decode w = .ok (.lw 9 8 0x8001) := by decide

theorem test_decode_sb :
    let w : Word := 0b101000#6 ++ 0b01000#5 ++ 0b01001#5 ++ 0b1000000000000001#16
    opcodeOf w = 40 ∧ decode w = .ok (.sb 9 8 0x8001) := by decide

theorem test_decode_sw :
    let w : Word := 0b101011#6 ++ 0b01000#5 ++ 0b01001#5 ++ 0b1000000000000001#16
    opcodeOf w = 43 ∧ decode w = .ok (.sw 9 8 0x8001) := by decide

theorem test_decode_beq :
    let w : Word := 0b000100#6 ++ 0b01000#5 ++ 0b01001#5 ++ 0b1000000000000001#16
    opcodeOf w = 4 ∧ decode w = .ok (.beq 9 8 0x8001) := by decide

theorem test_decode_bne :
    let w : Word := 0b000101#6 ++ 0b01000#5 ++ 0b01001#5 ++ 0b1000000000000001#16
    opcodeOf w = 5 ∧ decode w = .ok (.bne 9 8 0x8001) := by decide

theorem test_decode_blez :
    let w : Word := 0b000110#6 ++ 0b01000#5 ++ 0b01001#5 ++ 0b1000000000000001#16
    opcodeOf w = 6 ∧ decode w = .ok (.blez 9 8 0x8001) := by decide

theorem test_decode_bgtz :
    let w : Word := 0b000111#6 ++ 0b01000#5 ++ 0b01001#5 ++ 0b1000000000000001#16
    opcodeOf w = 7 ∧ decode w = .ok (.bgtz 9 8 0x8001) := by decide

theorem test_decode_addi :
    let w : Word := 0b001000#6 ++ 0b01000#5 ++ 0b01001#5 ++ 0b1000000000000001#16
    opcodeOf w = 8 ∧ decode w = .ok (.addi 9 8 0x8001) := by decide

theorem test_decode_slti :
    let w : Word := 0b001010#6 ++ 0b01000#5 ++ 0b01001#5 ++ 0b1000000000000001#16
    opcodeOf w = 10 ∧ decode w = .ok (.slti 9 8 0x8001) := by decide

theorem test_decode_andi :
    let w : Word := 0b001100#6 ++ 0b01000#5 ++ 0b01001#5 ++ 0b1000000000000001#16
    opcodeOf w = 12 ∧ decode w = .ok (.andi 9 8 0x8001) := by decide

theorem test_decode_ori :
    let w : Word := 0b001101#6 ++ 0b01000#5 ++ 0b01001#5 ++ 0b1000000000000001#16
    opcodeOf w = 13 ∧ decode w = .ok (.ori 9 8 0x8001) := by decide

theorem test_decode_xori :
    let w : Word := 0b001110#6 ++ 0b01000#5 ++ 0b01001#5 ++ 0b1000000000000001#16
    opcodeOf w = 14 ∧ decode w = .ok (.xori 9 8 0x8001) := by decide

/-! ### Text: one step on a word of spec/95_test_vectors.md or of the instruction's own rule. -/

/-- L2.2. -/
theorem test_text_sll : textFor 0x001fffc0 0 = some "sll $ra,$ra,31".toList := by decide

/-- R54. -/
theorem test_text_srl : textFor 0x001187c2 0 = some "srl $s0,$s1,31".toList := by decide

/-- L2.2. -/
theorem test_text_sra : textFor 0x00084043 0 = some "sra $t0,$t0,1".toList := by decide

/-- L2.2. -/
theorem test_text_jr : textFor 0x03e538c8 0 = some "jr $ra".toList := by decide

/-- L2.2. -/
theorem test_text_jalr : textFor 0x0320f809 0 = some "jalr $t9".toList := by decide

/-- L2.2. -/
theorem test_text_syscall : textFor 0x03ffffcc 0 = some "syscall".toList := by decide

/-- R59. -/
theorem test_text_break : textFor 0x0007ffcd 0 = some "break".toList := by decide

/-- R60. -/
theorem test_text_mfhi : textFor 0x00001010 0 = some "mfhi $v0".toList := by decide

/-- L2.2. -/
theorem test_text_mthi : textFor 0x01000011 0 = some "mthi $zero".toList := by decide

/-- R62. -/
theorem test_text_mflo : textFor 0x00001812 0 = some "mflo $v1".toList := by decide

/-- R63. -/
theorem test_text_mtlo : textFor 0x01200013 0 = some "mtlo $zero".toList := by decide

/-- R64. -/
theorem test_text_mult : textFor 0x0085f8d8 0 = some "mult $a0,$a1".toList := by decide

/-- L2.2. -/
theorem test_text_div : textFor 0x0080001a 0 = some "div $a0,$zero".toList := by decide

/-- L2.2. -/
theorem test_text_add : textFor 0x01095160 0 = some "add $t2,$t0,$t1".toList := by decide

/-- R67. -/
theorem test_text_sub : textFor 0x00851022 0 = some "sub $v0,$a0,$a1".toList := by decide

/-- R68. -/
theorem test_text_and : textFor 0x012a4024 0 = some "and $t0,$t1,$t2".toList := by decide

/-- R69. -/
theorem test_text_or : textFor 0x02328025 0 = some "or $s0,$s1,$s2".toList := by decide

/-- L2.2. -/
theorem test_text_xor : textFor 0x01095026 0 = some "xor $t2,$t0,$t1".toList := by decide

/-- L2.2. -/
theorem test_text_nor : textFor 0x00004027 0 = some "nor $t0,$zero,$zero".toList := by decide

/-- R72. -/
theorem test_text_slt : textFor 0x0109082a 0 = some "slt $at,$t0,$t1".toList := by decide

/-- L2.3. -/
theorem test_text_bltz : textFor 0x0500ffff 0 = some "bltz $t0,0xffff".toList := by decide

/-- L2.3. -/
theorem test_text_bgez : textFor 0x04818000 0xfffffffc = some "bgez $a0,0x8000".toList := by decide

/-- L2.4. -/
theorem test_text_j : textFor 0x0bffffff 0 = some "j 0xffffffc".toList := by decide

/-- L2.4. -/
theorem test_text_jal : textFor 0x0c100006 0xf0000000 = some "jal 0x400018".toList := by decide

/-- L2.5. -/
theorem test_text_lui : textFor 0x3c080000 0 = some "lui $t00x0".toList := by decide

/-- L2.6. -/
theorem test_text_lb : textFor 0x8088ffff 0 = some "lb $t0,0xffff($a0)".toList := by decide

/-- L2.6. -/
theorem test_text_lw : textFor 0x8fbf7fff 0 = some "lw $ra,32767($sp)".toList := by decide

/-- L2.6. -/
theorem test_text_sb : textFor 0xa088000a 0 = some "sb $t0,10($a0)".toList := by decide

/-- R82. -/
theorem test_text_sw : textFor 0xac008000 0 = some "sw $zero,0x8000($zero)".toList := by decide

/-- L2.7. -/
theorem test_text_beq : textFor 0x1000fffe 0 = some "beq $zero,$zero,0xfffffffc".toList := by decide

/-- L2.7. -/
theorem test_text_bne : textFor 0x1500ffff 0x00400010 = some "bne $zero,$t0,0x400010".toList := by decide

/-- R85. -/
theorem test_text_blez : textFor 0x18850001 0 = some "blez $a1,$a0,0x8".toList := by decide

/-- L2.7. -/
theorem test_text_bgtz : textFor 0x1d050003 0x00400000 = some "bgtz $a1,$t0,0x400010".toList := by decide

/-- L2.8. -/
theorem test_text_addi : textFor 0x23bd8000 0 = some "addi $sp,$sp,-0x8000".toList := by decide

/-- R88. -/
theorem test_text_slti : textFor 0x2901000a 0 = some "slti $at,$t0,0xa".toList := by decide

/-- L2.8. -/
theorem test_text_andi : textFor 0x3108ffff 0 = some "andi $t0,$t0,-0x1".toList := by decide

/-- L2.8. -/
theorem test_text_ori : textFor 0x34218000 0 = some "ori $at,$at,-0x8000".toList := by decide

/-- R91. -/
theorem test_text_xori : textFor 0x39287fff 0 = some "xori $t0,$t1,0x7fff".toList := by decide

/-! ### Failures, ports, edges -/

/-- L2.1, R46, R100: opcode 16, the coprocessor's, is absent. -/
theorem test_fail_unknownOpcode :
    (outputsFor true 0x40000000 0).map (fun o => (o.ok, o.err, o.mnem, o.form, o.text)) =
      some (false, 0b01, 0, 0, "error".toList) := by decide

/-- L2.1, R31, R40: function code 15 is absent. -/
theorem test_fail_unknownFunctionCode :
    (outputsFor true 0x0000000f 0).map (fun o => (o.ok, o.err, o.mnem, o.form, o.text)) =
      some (false, 0b10, 0, 0, "error".toList) := by decide

/-- L2.1, R75: rt 31 is no selector. -/
theorem test_fail_unhandledBranchSelector :
    (outputsFor true 0x041f0000 0).map (fun o => (o.ok, o.err, o.mnem, o.form, o.text)) =
      some (false, 0b11, 0, 0, "error".toList) := by decide

/-- L2.9: every output for a failing word. -/
theorem test_outputs_allOnes :
    outputsFor true 0xffffffff 0 = some
      { ok := false, err := 0b01, mnem := 0, form := 0, opcode := 63, rs := 31, rt := 31, rd := 31, shamt := 31, funct := 63,
        imm16 := 0xffff, addr26 := 0x3ffffff, simm := 0xffffffff, btarget := 0, jtarget := 0x0ffffffc,
        text := "error".toList } := by decide

/-- L2.9: every output for a load. -/
theorem test_outputs_lw :
    outputsFor true 0x8d288001 0x00400000 = some
      { ok := true, err := 0b00, mnem := 26, form := 9, opcode := 35, rs := 9, rt := 8, rd := 16, shamt := 0, funct := 1,
        imm16 := 0x8001, addr26 := 0x1288001, simm := 0xffff8001, btarget := 0x003e0008, jtarget := 0x04a20004,
        text := "lw $t0,0x8001($t1)".toList } := by decide

/-- L3 P4: the raw offset when BRANCH_OFFSET_SIGNED is false. -/
theorem test_branch_rawOffset :
    (outputsFor false 0x1500fffd 0x00400010).map (fun o => (o.btarget, o.text)) =
      some (0x00440008, "bne $zero,$t0,0x440008".toList) := by decide

/-- L2.10, edge 3: an edge with in_valid 0 holds the text and clears out_valid. -/
theorem test_edge_idle :
    (match step { given true 0x01095020 0x00400000 with
        outValid := true, out := failOutputs Config.standard { Inputs.idle with word := 0xffffffff } .unknownOpcode
        pending := [{ word := 0x03e00008, pc := 0x00400008, rst := false, inValid := false }] } with
      | .next t => some (t.outValid, t.out.text)
      | _ => none) = some (false, "error".toList) := by decide

/-- L2.10, edge 5: rst has priority over in_valid. -/
theorem test_edge_reset :
    (match step { given true 0x01095020 0x00400000 with
        outValid := true, pending := [{ word := 0x03e00008, pc := 0x00400014, rst := true, inValid := true }] } with
      | .next t => some t.outValid
      | _ => none) = some false := by decide

/-- The combinational variant reads neither rst nor in_valid (R10, R99). -/
theorem test_combinational :
    (match step { given true 0 0 with
        cfg := { pipelined := false, branchOffsetSigned := true }
        pending := [{ word := 0x01095020, pc := 0, rst := true, inValid := false }] } with
      | .next t => some t.out.text
      | _ => none) = some "add $t2,$t0,$t1".toList := by decide

/-- A word placed with withFetchWord is decoded by the very next step after reset, and so is a table row's word. -/
theorem test_withFetchWord :
    (match step (State.reset.withFetchWord 32 0x08000100) with
      | .next t => some (t.outValid, t.out.text)
      | _ => none) = some (true, "j 0x400".toList) ∧
    decodeTableWord 32 0x08000100 = some (.j 0x100) ∧ decodeTableWord 32 0x24080001 = none := by decide

/-- R107, I3: at a valid edge and at an idle one before the first reset edge `out_valid` is a free value, not the 1 of R21 or
the 0 of R22; the payload is the decode (R21) and no reset edge has come yet. -/
theorem test_edge_beforeReset :
    (match step (State.powerUp Config.standard [{ word := 0x03e00008, pc := 0, rst := false, inValid := true }]) with
      | .next t => some (t.outValid, t.resetSeen, t.draws, t.out.text)
      | _ => none) = some (Config.freeOutValid 1, false, 2, "jr $ra".toList) ∧
    (match step (State.powerUp Config.standard [Inputs.idle]) with
      | .next t => some (t.outValid, t.resetSeen, t.draws)
      | _ => none) = some (Config.freeOutValid 1, false, 2) := ⟨rfl, rfl⟩

/-! ### WellFormed: one ill-formed term for each check -/

theorem test_wellFormed_accepts :
    DecodedInstruction.wellFormed ⟨.add, .rdRsRt, ["$t2".toList, "$t0".toList, "$t1".toList]⟩ = true := by decide

/-- R48 gives `add` the form RD_RS_RT, not NONE. -/
theorem test_wellFormed_form : DecodedInstruction.wellFormed ⟨.add, .none, []⟩ = false := by decide

/-- RD_RS_RT has three operands, not two. -/
theorem test_wellFormed_count :
    DecodedInstruction.wellFormed ⟨.add, .rdRsRt, ["$t2".toList, "$t0".toList]⟩ = false := by decide

/-- An operand is not empty and holds no comma. -/
theorem test_wellFormed_operands :
    DecodedInstruction.wellFormed ⟨.jr, .rs, ["".toList]⟩ = false ∧
    DecodedInstruction.wellFormed ⟨.jr, .rs, ["$t2,$t0".toList]⟩ = false := by decide

/-! ### Witnesses: states and operands that meet the hypotheses of the statements -/

/-- DecodingStepRefinesThePseudocode, TextHasOneToTwentySevenPrintableCharacters, FieldsAreExtractedForEveryWord,
StepRunsTheDecodedInstruction: a pipelined state whose next step decodes a recognised word, and a combinational one whose
inputs say rst. -/
theorem witness_decodes :
    Decodes (given true 0x01095020 0) ∧ decode (nextInputs (given true 0x01095020 0)).word = .ok (.add 10 8 9) ∧
    Decodes { given true 0 0 with
      cfg := { pipelined := false, branchOffsetSigned := true }
      pending := [{ word := 0, pc := 0, rst := true, inValid := false }] } := by
  unfold Decodes
  decide

/-- FailingWordsGiveTheErrorValue, FailureKindsAreExactlyTheAbsentCodes: each cause at a boundary of its range. -/
theorem witness_failures :
    Decodes (given true 0x24000000 0) ∧ Decodes (given true 0x00000001 0) ∧ Decodes (given true 0x04020000 0) ∧
    (nextInputs (given true 0x04020000 0)).word = 0x04020000 ∧ absentOpcode (opcodeOf 0x24000000).toNat ∧ absentOpcode (opcodeOf 0xfc000000).toNat ∧
    opcodeOf 0x00000001 = 0 ∧ absentFunct (functOf 0x00000001).toNat ∧ absentFunct (functOf 0x0000003f).toNat ∧
    opcodeOf 0x04020000 = 1 ∧ 2 ≤ (rtOf 0x04020000).toNat ∧ 2 ≤ (rtOf 0x041f0000).toNat := by
  unfold Decodes absentOpcode absentFunct
  and_intros <;> decide

/-- IgnoredFieldsChangeNothing: `add` words that differ in shamt only (R42's example), and failing words. -/
theorem witness_ignoredFields :
    decode 0x00000020 = .ok (.add 0 0 0) ∧
    (0x000007e0 : Word) &&& readBits (formOf .add) = 0x00000020 &&& readBits (formOf .add) ∧
    Decodes (given true 0x00000020 0) ∧ Decodes (given true 0x000007e0 0) ∧
    opcodeOf 0x05100004 = opcodeOf 0x05300008 ∧ rtOf 0x05100004 = rtOf 0x05300008 ∧
    decode 0x05100004 = .fail .unhandledBranchSelector := by
  unfold Decodes
  decide

/-- EncodeOfDecodeClearsOnlyIgnoredBits, DecodeFollowsTheOpcodeTableRows: a recognised word with an ignored bit set. -/
theorem witness_recognised :
    decode 0x000007e0 = .ok (.add 0 0 0) ∧ (0x000007e0 : Word) &&& rowMask .add = rowMatch .add := by decide

/-- EveryInputHasOneResultWhateverCameBefore, PcReachesOnlyTheBranchTarget: states with other outputs, and other pcs, that are
presented the same word, of an opcode outside 4 to 7. -/
theorem witness_sameWord :
    Decodes (given true 0x0c100006 0) ∧ Decodes { given true 0x0c100006 0 with outValid := true, resetSeen := false, draws := 7 } ∧
    Decodes (given true 0x0c100006 0xf0000000) ∧ ¬ (4 ≤ (opcodeOf 0x0c100006).toNat ∧ (opcodeOf 0x0c100006).toNat ≤ 7) := by
  unfold Decodes
  decide

/-- SignExtenderFollowsBitFifteen, DisplacementIsHexFromEightThousandHex, BranchTargetWrapsModuloTwoToThe32: both sides of
0x8000, with the values the rules give there (R38, R43, R47). -/
theorem witness_boundaries :
    sext16 0x7fff = 32767 ∧ sext16 0x8000 = -32768 ∧ displacement 0x7fff = "32767".toList ∧
    displacement 0x8000 = "0x8000".toList ∧
    branchTarget { pipelined := true, branchOffsetSigned := true } 0 0x8000 = 0xfffe0004 ∧
    branchTarget { pipelined := true, branchOffsetSigned := true } 0xfffffffc 0 = 0 ∧
    branchTarget { pipelined := true, branchOffsetSigned := false } 0x00400010 0xffff = 0x00440010 ∧
    branchTarget { pipelined := true, branchOffsetSigned := true } 0 0x7fff = 0x00020000 := by decide

/-- HexIsTheLowercaseNumeral, ShexSignsTheHexOfTheMagnitude, DecIsTheDecimalNumeral: a negative integer, 0 and the greatest
target. -/
theorem witness_numbers :
    hex 0x0ffffffc = "0xffffffc".toList ∧ shex 0 = "0x0".toList ∧ dec (-10) = "-10".toList := by decide

/-- OkTextIsMnemonicSpaceOperands: with an operand, and with none. -/
theorem witness_operands :
    renderOk ⟨.jr, .rs, ["$ra".toList]⟩ = "jr $ra".toList ∧ renderOk ⟨.break_, .none, []⟩ = "break".toList := by decide

/-- IdleEdgeHoldsThePayload, ResetEdgeClearsOutValidFirst: inputs of an idle edge, and of a reset edge with in_valid 1. -/
theorem witness_edges :
    (given true 0 0).cfg.pipelined = true ∧
    (nextInputs { given true 0 0 with pending := [Inputs.idle] }).rst = false ∧
    (nextInputs { given true 0 0 with pending := [Inputs.idle] }).inValid = false ∧
    (nextInputs { given true 0 0 with pending := [{ word := 0, pc := 0, rst := true, inValid := true }] }).rst = true := by
  decide

/-- ResetEdgeClearsOutValidFirst: from power-up, a reset edge and then a valid one, with the text after both. -/
theorem witness_powerUp :
    (match Host.Core.run Sys2Proof.core 2 (State.powerUp Config.standard
        [{ word := 0, pc := 0, rst := true, inValid := true }, { word := 0x03e00008, pc := 8, rst := false, inValid := true }]) with
      | .next t => some (t.outValid, t.out.text)
      | _ => none) = some (true, "jr $ra".toList) := by decide

/-- OutValidIsUnspecifiedUntilTheFirstResetEdge: from power-up two edges with rst 0 (k = 1, the last place), of which one is
idle; and IdleEdgeHoldsThePayload in such a state. -/
theorem witness_beforeReset :
    (State.powerUp Config.standard [Inputs.idle, Inputs.idle]).cfg.pipelined = true ∧
    (State.powerUp Config.standard [Inputs.idle, Inputs.idle]).resetSeen = false ∧
    1 < (State.powerUp Config.standard [Inputs.idle, Inputs.idle]).pending.length ∧
    (∀ x ∈ (State.powerUp Config.standard [Inputs.idle, Inputs.idle]).pending.take 2, x.rst = false) ∧
    (nextInputs (State.powerUp Config.standard [Inputs.idle, Inputs.idle])).inValid = false := by decide

/-- What a host presents: a reset edge, a failing word, a valid pair. -/
def resetFailJr : List Inputs :=
  [{ word := 0, pc := 0, rst := true, inValid := true }, { word := 0xffffffff, pc := 0, rst := false, inValid := true },
    { word := 0x03e00008, pc := 8, rst := false, inValid := true }]

/-- ScheduleGivesEachResultAtItsOwnStep: from power-up a valid pair with a reset edge before it (k = 2). -/
theorem witness_schedule :
    (State.powerUp Config.standard resetFailJr).pending[2]? = some { word := 0x03e00008, pc := 8, rst := false, inValid := true } ∧
    ∃ y ∈ (State.powerUp Config.standard resetFailJr).pending.take 2, y.rst = true := by decide

/-- A state whose outputs may be read: `jr $ra` has just been decoded. -/
def afterJr : State :=
  loadOutputs (okOutputs Config.standard { Inputs.idle with word := 0x03e00008 } ⟨.jr, .rs, ["$ra".toList]⟩) State.reset

/-- OutputsAgreeAfterEveryStep, StepsNeverChangeTheParameters: a state whose outputs may be read, that meets the invariant,
and from which a step answers a next state. -/
theorem witness_invariant : Readable afterJr ∧ Inv afterJr ∧ ∃ t, step afterJr = .next t := by
  refine ⟨.inr ⟨rfl, rfl⟩, ⟨by decide, fun _ => ⟨by decide, by decide, by decide, by decide, by decide, by decide, by decide⟩⟩, _, rfl⟩

/-- TextDeterminesTheInstruction: two runs with the same text. -/
theorem witness_sameText :
    ∃ t t', exec (.jr 31) State.reset = .next t ∧ exec (.jr 31) State.reset = .next t' ∧ t.out.text = t'.out.text :=
  ⟨_, _, rfl, rfl, rfl⟩

end Sys2Proof.Tests
end

section
/-! SUPPORT and PROOFS. Numerals: what `digits` spells (R2 to R4), and from it `hex`, `shex` and `dec`. -/

namespace Sys2Proof.Machine

open Sys2Proof.Safety

/-! ### One digit -/

theorem digitChar_mem_take {b d : Nat} (hb : b ≤ 16) (hd : d < b) :
    digitChar d ∈ "0123456789abcdef".toList.take b := by
  have h : ∀ b ≤ 16, ∀ d < b, digitChar d ∈ "0123456789abcdef".toList.take b := by decide
  exact h b hb d hd

theorem idxOf_digitChar {d : Nat} (hd : d < 16) : "0123456789abcdef".toList.idxOf (digitChar d) = d := by
  have h : ∀ d < 16, "0123456789abcdef".toList.idxOf (digitChar d) = d := by decide
  exact h d hd

theorem valueOf_append_digitChar {b d : Nat} (ds : Text) (hd : d < 16) :
    valueOf b (ds ++ [digitChar d]) = valueOf b ds * b + d := by
  simp only [valueOf, List.foldl_append, List.foldl_cons, List.foldl_nil, idxOf_digitChar hd]

/-! ### Numerals -/

/-- A digit alone is the numeral of its value. -/
theorem numeral_digitChar {b d : Nat} (hb : b ≤ 16) (hd : d < b) : Numeral b d [digitChar d] where
  nonempty := List.cons_ne_nil _ _
  digit := by simpa using digitChar_mem_take hb hd
  canonical := by simp
  value := by simpa [valueOf] using idxOf_digitChar (Nat.lt_of_lt_of_le hd hb)

/-- A digit after the numeral of a positive number: the number times the base, and the digit. A leading zero is impossible,
since the numeral before the digit would be `0` itself. -/
theorem numeral_append_digitChar {b n d : Nat} {ds : Text} (h : Numeral b n ds) (hn : 0 < n) (hb : b ≤ 16) (hd : d < b) :
    Numeral b (n * b + d) (ds ++ [digitChar d]) where
  nonempty := by simp
  digit c hc := by
    rcases List.mem_append.1 hc with hc | hc
    · exact h.digit c hc
    · exact List.mem_singleton.1 hc ▸ digitChar_mem_take hb hd
  canonical hz := by
    rw [List.head?_append_of_ne_nil _ h.nonempty] at hz
    have hzero : n = 0 := by
      rw [← h.value, h.canonical hz]
      simp [valueOf]
    exact absurd hzero hn.ne'
  value := by rw [valueOf_append_digitChar ds (Nat.lt_of_lt_of_le hd hb), h.value]

/-! ### The digits of a number -/

theorem digitsBefore_eq_append (b fuel n : Nat) (acc : Text) :
    digitsBefore b fuel n acc = digitsBefore b fuel n [] ++ acc := by
  induction fuel generalizing n acc with
  | zero => rfl
  | succ fuel ih =>
    unfold digitsBefore
    split
    · rfl
    · rw [ih _ (_ :: acc), ih _ [_], List.append_assoc]
      rfl

/-- With enough fuel the digits are a numeral, whatever the fuel is. -/
theorem numeral_digitsBefore {b fuel n : Nat} (hb : 2 ≤ b) (hb16 : b ≤ 16) (hn : n < fuel) :
    Numeral b n (digitsBefore b fuel n []) := by
  induction fuel generalizing n with
  | zero => exact absurd hn (Nat.not_lt_zero n)
  | succ fuel ih =>
    unfold digitsBefore
    split
    case isTrue hlt => exact numeral_digitChar hb16 hlt
    case isFalse hge =>
      have hpos : 0 < n / b := Nat.div_pos (by omega) (by omega)
      have hfuel : n / b < fuel := Nat.lt_of_lt_of_le (Nat.div_lt_self (by omega) hb) (by omega)
      have h := numeral_append_digitChar (ih hfuel) hpos hb16 (Nat.mod_lt n (by omega))
      rwa [Nat.div_add_mod', ← digitsBefore_eq_append] at h

theorem numeral_digits {b : Nat} (hb : 2 ≤ b) (hb16 : b ≤ 16) (n : Nat) : Numeral b n (digits b n) :=
  numeral_digitsBefore hb hb16 (Nat.lt_succ_self n)

theorem digits_injective {b : Nat} (hb : 2 ≤ b) (hb16 : b ≤ 16) : Function.Injective (digits b) := fun m n h => by
  rw [← (numeral_digits hb hb16 m).value, h, (numeral_digits hb hb16 n).value]

theorem minus_notMem_digits {b : Nat} (hb : 2 ≤ b) (hb16 : b ≤ 16) (n : Nat) : '-' ∉ digits b n := fun h =>
  have hmem : '-' ∈ "0123456789abcdef".toList := List.mem_of_mem_take ((numeral_digits hb hb16 n).digit _ h)
  absurd hmem (by decide)

/-! ### `hex`, `shex` and `dec` -/

theorem hex_injective : Function.Injective hex := fun m n h =>
  digits_injective (by decide) (by decide) (List.cons_injective (List.cons_injective h))

theorem minus_notMem_hex (n : Nat) : '-' ∉ hex n := by
  simp [hex, minus_notMem_digits]

theorem shex_of_nonneg {i : Int} (h : 0 ≤ i) : shex i = hex i.natAbs := by
  rw [shex, if_neg (by omega), show i.toNat = i.natAbs by omega]

theorem shex_of_neg {i : Int} (h : i < 0) : shex i = '-' :: hex i.natAbs := by
  rw [shex, if_pos h, show (-i).toNat = i.natAbs by omega]

/-- The first character tells the sign, and the hex behind it the magnitude. -/
theorem shex_injective : Function.Injective shex := by
  intro i j h
  rcases lt_or_ge i 0 with hi | hi <;> rcases lt_or_ge j 0 with hj | hj
  · rw [shex_of_neg hi, shex_of_neg hj] at h
    have habs := hex_injective (List.cons_injective h)
    omega
  · rw [shex_of_neg hi, shex_of_nonneg hj] at h
    exact absurd h (by simp [hex])
  · rw [shex_of_nonneg hi, shex_of_neg hj] at h
    exact absurd h (by simp [hex])
  · rw [shex_of_nonneg hi, shex_of_nonneg hj] at h
    have habs := hex_injective h
    omega

theorem dec_of_nonneg {i : Int} (h : 0 ≤ i) : dec i = digits 10 i.natAbs := by
  rw [dec, if_neg (by omega), show i.toNat = i.natAbs by omega]

theorem dec_of_neg {i : Int} (h : i < 0) : dec i = '-' :: digits 10 i.natAbs := by
  rw [dec, if_pos h, show (-i).toNat = i.natAbs by omega]

theorem minus_notMem_dec_natCast (n : Nat) : '-' ∉ dec n := by
  rw [dec_of_nonneg (Int.natCast_nonneg n)]
  exact minus_notMem_digits (by decide) (by decide) _

/-! ### The displacement (R47) -/

theorem sext16_of_lt {v : BitVec 16} (h : v.toNat < 0x8000) : sext16 v = v.toNat := by
  rw [sext16, BitVec.msb_eq_decide, if_neg (by simpa using h)]

theorem displacement_of_ge {imm16 : BitVec 16} (h : 0x8000 ≤ imm16.toNat) : displacement imm16 = hex imm16.toNat :=
  if_pos h

theorem displacement_of_lt {imm16 : BitVec 16} (h : imm16.toNat < 0x8000) : displacement imm16 = dec imm16.toNat := by
  rw [displacement, if_neg (Nat.not_le.2 h), sext16_of_lt h]

theorem minus_notMem_displacement (imm16 : BitVec 16) : '-' ∉ displacement imm16 := by
  rcases Nat.lt_or_ge imm16.toNat 0x8000 with h | h
  · rw [displacement_of_lt h]
    exact minus_notMem_dec_natCast _
  · rw [displacement_of_ge h]
    exact minus_notMem_hex _

/-! ### The obligations on numbers -/

/-- Settles O1: the digits of a number are its numeral, by induction on the fuel of `digitsBefore`. -/
theorem hexIsTheLowercaseNumeral : Obligations.HexIsTheLowercaseNumeral :=
  ⟨fun n => ⟨digits 16 n, rfl, numeral_digits (by decide) (by decide) n⟩, rfl⟩

/-- Settles O2: the two signs by the definition, injectivity from that of `hex` and from the first character. -/
theorem shexSignsTheHexOfTheMagnitude : Obligations.ShexSignsTheHexOfTheMagnitude :=
  ⟨fun _ => ⟨shex_of_nonneg, shex_of_neg⟩, by decide, by decide, shex_injective⟩

/-- Settles O3: the numerals are those of `digits` in base 10, whose characters are all digits. -/
theorem decIsTheDecimalNumeral : Obligations.DecIsTheDecimalNumeral := by
  have hnum := numeral_digits (b := 10) (by decide) (by decide)
  refine ⟨fun i => ⟨fun h => ?_, fun h => ⟨_, dec_of_neg h, hnum _⟩⟩, rfl, minus_notMem_displacement,
    fun shamt => minus_notMem_dec_natCast _⟩
  rw [dec_of_nonneg h]
  exact hnum _

end Sys2Proof.Machine
end

section
/-! SUPPORT and PROOFS. Names: the result text (R6 to R8), the register names (R5, R14) and the mnemonics (R9, R24). -/

namespace Sys2Proof.Machine

open Sys2Proof.Safety

/-! ### The result text -/

theorem joinOperands_eq_intercalate (os : List Text) : joinOperands os = List.intercalate [','] os := by
  induction os with
  | nil => rfl
  | cons o os ih =>
    cases os with
    | nil => simp [joinOperands]
    | cons o' os =>
      rw [List.intercalate_cons_cons, ← ih, List.append_assoc]
      rfl

/-- The model's rendering is the claims' `line` of the mnemonic's spelling. -/
theorem renderOk_eq_line (d : DecodedInstruction) : renderOk d = line (mnemonicText d.mnemonic) d.operands := by
  obtain ⟨m, f, os⟩ := d
  cases os with
  | nil => rfl
  | cons o os => simp [renderOk, line, joinOperands_eq_intercalate]

/-- Settles O5: the rendering is `line`, whose two cases are the two clauses; a failure's text is the constant. -/
theorem okTextIsMnemonicSpaceOperands : Obligations.OkTextIsMnemonicSpaceOperands := by
  refine ⟨fun d h => ?_, fun d h => ?_, failOutputs_text⟩
  · simp [renderOk_eq_line, line, h]
  · simp [renderOk_eq_line, h]

/-! ### Register names -/

theorem registerNameTable_nodup : registerNameTable.Nodup := by decide

theorem toNat_lt_length_registerNameTable (i : RegIndex) : i.toNat < registerNameTable.length := i.isLt

theorem registerNameTable_getElem?_toNat (i : RegIndex) : registerNameTable[i.toNat]? = some (reg i) := by
  rw [reg, List.getD_eq_getElem _ _ (toNat_lt_length_registerNameTable i), List.getElem?_eq_getElem]

/-- Two indices with one name stand at one place of a table that repeats no name. -/
theorem reg_injective : Function.Injective reg := fun i j h => by
  have hplace : registerNameTable[i.toNat]? = registerNameTable[j.toNat]? := by
    rw [registerNameTable_getElem?_toNat, registerNameTable_getElem?_toNat, h]
  exact BitVec.eq_of_toNat_eq
    ((List.getElem?_inj (toNat_lt_length_registerNameTable i) registerNameTable_nodup).1 hplace)

/-- Settles O4: the table is read off; `reg` looks up a table that is total and repeats no name. -/
theorem registerNamesAreTotalAndDistinct : Obligations.RegisterNamesAreTotalAndDistinct :=
  ⟨rfl, by decide, by decide, registerNameTable_getElem?_toNat, reg_injective⟩

/-! ### Mnemonics -/

theorem spellings_getElem?_mnemonicId (m : Mnemonic) : spellings[(mnemonicId m).toNat]? = some (mnemonicText m) := by
  cases m <;> rfl

/-- The ids number the mnemonics in the order in which `Mnemonic` lists them. -/
theorem ofNat_mnemonicId (m : Mnemonic) : Mnemonic.ofNat (mnemonicId m).toNat = m := by
  cases m <;> rfl

theorem mnemonicId_injective : Function.Injective mnemonicId :=
  Function.LeftInverse.injective (g := fun k : BitVec 6 => Mnemonic.ofNat k.toNat) ofNat_mnemonicId

theorem mnemonicId_lt (m : Mnemonic) : (mnemonicId m).toNat < 38 :=
  (List.getElem?_eq_some_iff.1 (spellings_getElem?_mnemonicId m)).1

theorem mnemonicText_lowercase (m : Mnemonic) : ∀ ch ∈ mnemonicText m, 'a' ≤ ch ∧ ch ≤ 'z' := by
  have hall : (mnemonicText m).all (fun ch => 'a' ≤ ch ∧ ch ≤ 'z') = true := by cases m <;> decide
  simpa using hall

theorem spellings_nodup : spellings.Nodup := by
  simp [spellings]

/-- Settles O6: the spellings mnemonic by mnemonic; the ids are bounded by the list they index, and number the mnemonics in
their order, so that no two are equal. -/
theorem mnemonicsAreSpelledAndNumberedInTableOrder : Obligations.MnemonicsAreSpelledAndNumberedInTableOrder :=
  ⟨fun m => ⟨spellings_getElem?_mnemonicId m, mnemonicId_lt m, mnemonicText_lowercase m⟩,
    mnemonicId_injective, spellings_nodup, rfl, failOutputs_mnem⟩

end Sys2Proof.Machine
end

section
/-! SUPPORT and PROOFS. Determinism: a step always answers a next state (R1), and the outputs of a decode are a function of the
word, the pc and the offset setting (R109). -/

namespace Sys2Proof.Machine

open Sys2Proof.Safety

/-! ### What a decode reads -/

theorem branchTarget_congr {c c' : Config} (h : c.branchOffsetSigned = c'.branchOffsetSigned) (pc : Word)
    (imm16 : BitVec 16) : branchTarget c pc imm16 = branchTarget c' pc imm16 := by
  simp only [branchTarget, branchOffset, h]

theorem drivenOutputs_congr {c c' : Config} {x x' : Inputs} (h : c.branchOffsetSigned = c'.branchOffsetSigned)
    (hw : x.word = x'.word) (hpc : x.pc = x'.pc) : drivenOutputs c x = drivenOutputs c' x' := by
  simp only [drivenOutputs, hw, hpc, branchTarget_congr h]

/-- All that a meaning reads of the state for its result is, in the branch family, the branch target (R18). -/
theorem exec_same_instruction (i : Instr) {s s' : State}
    (h : formOf i.mnemonic = .branch →
      ∀ imm16, branchTarget s.cfg s.inp.pc imm16 = branchTarget s'.cfg s'.inp.pc imm16) :
    ∃ d, exec i s = returnOk d s ∧ exec i s' = returnOk d s' := by
  cases i
  case beq rt rs imm16 | bne rt rs imm16 | blez rt rs imm16 | bgtz rt rs imm16 =>
    refine ⟨_, rfl, ?_⟩
    rw [h rfl imm16]
    rfl
  all_goals exact ⟨_, rfl, rfl⟩

/-- Decoding at the ports of two states that hold the same word and pc, with one offset setting, drives the same outputs. -/
theorem decodeInputs_same_out {s s' : State} (hc : s.cfg.branchOffsetSigned = s'.cfg.branchOffsetSigned)
    (hw : s.inp.word = s'.inp.word) (hpc : s.inp.pc = s'.inp.pc) :
    ∃ o, decodeInputs s = .next (loadOutputs o s) ∧ decodeInputs s' = .next (loadOutputs o s') := by
  have hdriven := drivenOutputs_congr hc hw hpc
  unfold decodeInputs
  rw [← hw]
  cases decode s.inp.word with
  | ok i =>
    obtain ⟨d, hs, hs'⟩ := exec_same_instruction i (s := s) (s' := s')
      fun _ imm16 => by rw [hpc, branchTarget_congr hc]
    refine ⟨okOutputs s.cfg s.inp d, hs, hs'.trans ?_⟩
    simp only [returnOk, okOutputs, hdriven]
  | fail k =>
    refine ⟨failOutputs s.cfg s.inp k, rfl, ?_⟩
    simp only [returnFail, failOutputs, hdriven]

/-! ### The step -/

theorem step_total (s : State) : ∃ t, step s = .next t := by
  cases h : stepAction s.cfg (nextInputs s) with
  | load =>
    obtain ⟨o, ho, -⟩ := decodeInputs_same_out (s := presentInputs s) rfl rfl rfl
    exact ⟨_, (step_of_load s h).trans ho⟩
  | resetEdge => exact ⟨_, step_of_resetEdge s h⟩
  | idleEdge => exact ⟨_, step_of_idleEdge s h⟩

/-- Settles O30: each of the three actions of a step answers a next state; a decode's outputs are those `decodeInputs` drives
from the word and pc presented, and it reads no more of the parameters than the offset setting. -/
theorem everyInputHasOneResultWhateverCameBefore : Obligations.EveryInputHasOneResultWhateverCameBefore := by
  refine ⟨step_total, fun s s' hd hd' hc hw hpc => ?_⟩
  obtain ⟨o, ho, ho'⟩ := decodeInputs_same_out (s := presentInputs s) (s' := presentInputs s')
    (by simpa using hc) (by simpa using hw) (by simpa using hpc)
  exact ⟨_, _, (step_of_decodes hd).trans ho, (step_of_decodes hd').trans ho', by simp⟩

end Sys2Proof.Machine
end

section
/-! SUPPORT. What a decode drives: `comb(word, pc)` of R21 as one function of the parameters and the inputs, read off the
always-driven outputs (R11). Every decoding step loads it. -/

namespace Sys2Proof.Machine

open Sys2Proof.Safety

/-! ### The fields of a word (R34 to R38, R44) -/

theorem addr26Of_eq_append (w : Word) : addr26Of w = rsOf w ++ rtOf w ++ imm16Of w := by
  simp only [addr26Of, rsOf, rtOf, imm16Of, field_eq_extractLsb']
  rw [BitVec.extractLsb'_append_extractLsb'_eq_extractLsb' (by decide),
    BitVec.extractLsb'_append_extractLsb'_eq_extractLsb' (by decide)]

theorem imm16Of_eq_append (w : Word) : imm16Of w = rdOf w ++ shamtOf w ++ functOf w := by
  simp only [imm16Of, rdOf, shamtOf, functOf, field_eq_extractLsb']
  rw [BitVec.extractLsb'_append_extractLsb'_eq_extractLsb' (by decide),
    BitVec.extractLsb'_append_extractLsb'_eq_extractLsb' (by decide)]

theorem to32_sext16 (v : BitVec 16) : to32 (sext16 v) = v.signExtend 32 := by
  rw [sext16_eq_toInt]
  rfl

/-- The `simm` port still holds the immediate as an integer (R38). -/
theorem toInt_to32_sext16 (v : BitVec 16) : (to32 (sext16 v)).toInt = sext16 v := by
  rw [to32_sext16, BitVec.toInt_signExtend_of_le (by decide), sext16_eq_toInt]

theorem jumpTarget_toNat (addr26 : BitVec 26) : (jumpTarget addr26).toNat = 4 * addr26.toNat := by
  have happend : (addr26 ++ 0b00#2).toNat = 4 * addr26.toNat := by
    rw [BitVec.toNat_append, BitVec.toNat_ofNat, Nat.shiftLeft_eq]
    simp [Nat.mul_comm]
  rw [jumpTarget, BitVec.toNat_setWidth, happend, Nat.mod_eq_of_lt (by omega)]

theorem memOperand_eq (rs : RegIndex) (imm16 : BitVec 16) : memOperand rs imm16 =
    (if imm16.toNat < 0x8000 then dec imm16.toNat else hex imm16.toNat) ++ "(".toList ++ reg rs ++ ")".toList := by
  rw [memOperand]
  split
  case isTrue h => simp [displacement_of_lt h]
  case isFalse h => simp [displacement_of_ge (Nat.not_lt.1 h)]

/-! ### The decoded instruction -/

/-- The instruction of mnemonic `m` as the always-driven outputs show it: the form of R48, with its operands read from the
field outputs. -/
def decodedAs (m : Mnemonic) (c : Config) (x : Inputs) : DecodedInstruction where
  mnemonic := m
  form := formOf m
  operands := operandsOf { drivenOutputs c x with form := formCode (formOf m) }

/-- The meaning of the word at the ports returns what the field outputs show: family by family, its operands are spelled
from the same fields. -/
theorem exec_assemble (m : Mnemonic) (s : State) :
    exec (assemble m s.inp.word) s = returnOk (decodedAs m s.cfg s.inp) s := by
  cases m
  case lb | lw | sb | sw =>
    change returnOk ⟨_, .mem, [reg (rtOf s.inp.word), memOperand (rsOf s.inp.word) (imm16Of s.inp.word)]⟩ s = _
    rw [memOperand_eq]
    rfl
  case addi | slti | andi | ori | xori =>
    change returnOk ⟨_, .rtRsSimm, [reg (rtOf s.inp.word), reg (rsOf s.inp.word), shex (sext16 (imm16Of s.inp.word))]⟩ s = _
    rw [← toInt_to32_sext16]
    rfl
  all_goals rfl

theorem eq_assemble_of_decode {w : Word} {i : Instr} (h : decode w = .ok i) : i = assemble i.mnemonic w := by
  obtain ⟨m, rfl, -⟩ := decode_ok_cases h
  rw [assemble_mnemonic]

/-! ### The outputs of a decode -/

/-- `comb(word, pc)` of R21: all outputs of decoding the inputs `x`. -/
def combOutputs (c : Config) (x : Inputs) : Outputs :=
  match decode x.word with
  | .ok i => okOutputs c x (decodedAs i.mnemonic c x)
  | .fail k => failOutputs c x k

/-- The two kinds of result (R1). -/
theorem combOutputs_cases (c : Config) (x : Inputs) :
    (∃ m, combOutputs c x = okOutputs c x (decodedAs m c x)) ∨ (∃ k, combOutputs c x = failOutputs c x k) := by
  unfold combOutputs
  cases decode x.word with
  | ok i => exact .inl ⟨_, rfl⟩
  | fail k => exact .inr ⟨k, rfl⟩

theorem decodeInputs_eq_loadOutputs (s : State) :
    decodeInputs s = .next (loadOutputs (combOutputs s.cfg s.inp) s) := by
  unfold decodeInputs combOutputs
  cases h : decode s.inp.word with
  | ok i =>
    have hexec := exec_assemble i.mnemonic s
    rwa [← eq_assemble_of_decode h] at hexec
  | fail k => rfl

theorem step_eq_loadOutputs_of_decodes {s : State} (h : Decodes s) :
    step s = .next (loadOutputs (combOutputs s.cfg (nextInputs s)) (presentInputs s)) := by
  rw [step_of_decodes h, decodeInputs_eq_loadOutputs, presentInputs_cfg, presentInputs_inp]

/-- A decoding step drives exactly `comb` of the inputs presented. -/
theorem decodes_step_out {s : State} (h : Decodes s) :
    ∃ t, step s = .next t ∧ t.out = combOutputs s.cfg (nextInputs s) :=
  ⟨_, step_eq_loadOutputs_of_decodes h, loadOutputs_out _ _⟩

/-- Everything a step can do, a decode told by what it loads. -/
theorem step_next_cases {s t : State} (h : step s = .next t) :
    (Decodes s ∧ t = loadOutputs (combOutputs s.cfg (nextInputs s)) (presentInputs s)) ∨
    (s.cfg.pipelined = true ∧ t = resetEdge (presentInputs s)) ∨
    (s.cfg.pipelined = true ∧ t = idleEdge (presentInputs s)) := by
  rcases step_cases h with ⟨hd, -⟩ | ⟨hp, -, ht⟩ | ⟨hp, -, -, ht⟩
  · rw [step_eq_loadOutputs_of_decodes hd] at h
    exact .inl ⟨hd, (Host.Outcome.next.inj h).symm⟩
  · exact .inr (.inl ⟨hp, ht⟩)
  · exact .inr (.inr ⟨hp, ht⟩)

end Sys2Proof.Machine
end

section
/-! SUPPORT and PROOFS. The text of a decode: its characters are printable (D20), and its length is within TEXT_MAX (R11). -/

namespace Sys2Proof.Machine

open Sys2Proof.Safety

/-! ### Printable texts -/

/-- Every character of the text is printable ASCII. -/
def AllPrintable (t : Text) : Prop := ∀ ch ∈ t, Printable ch

@[simp] theorem allPrintable_nil : AllPrintable [] := by simp [AllPrintable]

@[simp] theorem allPrintable_cons (ch : Char) (t : Text) : AllPrintable (ch :: t) ↔ Printable ch ∧ AllPrintable t :=
  List.forall_mem_cons

@[simp] theorem allPrintable_append (t u : Text) : AllPrintable (t ++ u) ↔ AllPrintable t ∧ AllPrintable u :=
  List.forall_mem_append

/-- A text is printable when its characters are among those of a printable text. -/
theorem allPrintable_of_subset {t u : Text} (hu : AllPrintable u) (h : ∀ ch ∈ t, ch ∈ u) : AllPrintable t :=
  fun ch hch => hu ch (h ch hch)

theorem printable_punctuation : Printable ' ' ∧ Printable ',' ∧ Printable '-' ∧ Printable '(' ∧ Printable ')' ∧
    Printable '0' ∧ Printable 'x' := by
  simp only [Printable]
  decide

/-- A given text is checked by evaluation. -/
theorem allPrintable_of_all {t : Text} (h : t.all (fun ch => 0x20 ≤ ch.toNat ∧ ch.toNat ≤ 0x7e) = true) :
    AllPrintable t := by
  simpa [AllPrintable, Printable] using h

theorem allPrintable_hexDigits : AllPrintable "0123456789abcdef".toList := allPrintable_of_all (by decide)

theorem allPrintable_renderFail : AllPrintable renderFail := allPrintable_of_all (by decide)

theorem allPrintable_registerNameTable : AllPrintable registerNameTable.flatten := allPrintable_of_all (by decide)

theorem allPrintable_digits {b : Nat} (hb : 2 ≤ b) (hb16 : b ≤ 16) (n : Nat) : AllPrintable (digits b n) :=
  allPrintable_of_subset allPrintable_hexDigits fun ch hch =>
    List.mem_of_mem_take ((numeral_digits hb hb16 n).digit ch hch)

@[simp] theorem allPrintable_hex (n : Nat) : AllPrintable (hex n) := by
  simp [hex, printable_punctuation, allPrintable_digits]

@[simp] theorem allPrintable_shex (i : Int) : AllPrintable (shex i) := by
  rw [shex]
  split <;> simp [printable_punctuation]

@[simp] theorem allPrintable_dec (i : Int) : AllPrintable (dec i) := by
  rw [dec]
  split <;> simp [printable_punctuation, allPrintable_digits]

@[simp] theorem allPrintable_reg (i : RegIndex) : AllPrintable (reg i) :=
  allPrintable_of_subset allPrintable_registerNameTable fun _ hch =>
    List.mem_flatten_of_mem (List.mem_of_getElem? (registerNameTable_getElem?_toNat i)) hch

@[simp] theorem allPrintable_mnemonicText (m : Mnemonic) : AllPrintable (mnemonicText m) := fun ch hch => by
  obtain ⟨hlo, hhi⟩ := mnemonicText_lowercase m ch hch
  have hlo' : 0x61 ≤ ch.toNat := hlo
  have hhi' : ch.toNat ≤ 0x7a := hhi
  exact ⟨by omega, by omega⟩

theorem allPrintable_operandsOf (o : Outputs) : ∀ t ∈ operandsOf o, AllPrintable t := by
  unfold operandsOf
  split
  case h_10 => split <;> simp [printable_punctuation]
  all_goals simp

theorem allPrintable_joinOperands {os : List Text} (h : ∀ t ∈ os, AllPrintable t) : AllPrintable (joinOperands os) := by
  induction os with
  | nil => exact allPrintable_nil
  | cons o os ih =>
    obtain ⟨ho, hos⟩ := List.forall_mem_cons.1 h
    cases os with
    | nil => exact ho
    | cons o' os => simp [joinOperands, ho, printable_punctuation, ih hos]

theorem allPrintable_renderOk {d : DecodedInstruction} (h : ∀ t ∈ d.operands, AllPrintable t) :
    AllPrintable (renderOk d) := by
  have hjoin := allPrintable_joinOperands h
  unfold renderOk
  split
  case h_1 => simp
  case h_2 o os ho =>
    rw [ho] at hjoin
    simp [printable_punctuation, hjoin]

/-! ### Lengths of operands -/

/-- The digits of a number below `b ^ (k + 1)` are at most `k + 1`, whatever the fuel. -/
theorem length_digitsBefore_le {b k fuel n : Nat} (h : n < b ^ (k + 1)) : (digitsBefore b fuel n []).length ≤ k + 1 := by
  induction fuel generalizing n k with
  | zero => simp [digitsBefore]
  | succ fuel ih =>
    unfold digitsBefore
    split
    case isTrue => simp
    case isFalse hge =>
      cases k with
      | zero => exact absurd (by simpa using h) hge
      | succ k =>
        have hdiv : n / b < b ^ (k + 1) := Nat.div_lt_of_lt_mul (by rwa [← Nat.pow_succ'])
        rw [digitsBefore_eq_append, List.length_append]
        exact Nat.succ_le_succ (ih hdiv)

theorem length_digits_le {b k n : Nat} (h : n < b ^ (k + 1)) : (digits b n).length ≤ k + 1 :=
  length_digitsBefore_le h

theorem length_hex_le {k n : Nat} (h : n < 16 ^ (k + 1)) : (hex n).length ≤ k + 3 := by
  simpa [hex] using length_digits_le h

theorem length_hex_word_le (v : Word) : (hex v.toNat).length ≤ 10 := length_hex_le (k := 7) v.isLt

theorem length_hex_imm16_le (v : BitVec 16) : (hex v.toNat).length ≤ 6 := length_hex_le (k := 3) v.isLt

theorem length_shex_sext16_le (v : BitVec 16) : (shex (sext16 v)).length ≤ 7 := by
  have habs : (sext16 v).natAbs < 16 ^ 4 := by
    have hlo := BitVec.le_two_mul_toInt (x := v)
    have hhi := BitVec.two_mul_toInt_lt (x := v)
    rw [sext16_eq_toInt]
    omega
  have hhex := length_hex_le habs
  rcases lt_or_ge (sext16 v) 0 with h | h
  · rw [shex_of_neg h]
    exact Nat.succ_le_succ hhex
  · rw [shex_of_nonneg h]
    exact Nat.le_succ_of_le hhex

theorem length_dec_natCast_le {k n : Nat} (h : n < 10 ^ (k + 1)) : (dec n).length ≤ k + 1 := by
  rw [dec_of_nonneg (Int.natCast_nonneg n)]
  exact length_digits_le h

theorem length_reg_le (i : RegIndex) : (reg i).length ≤ 5 := by
  have htable : ∀ name ∈ registerNameTable, name.length ≤ 5 := by decide
  exact htable _ (List.mem_of_getElem? (registerNameTable_getElem?_toNat i))

/-! ### Length of the text -/

/-- How many characters operands add to a text: each its own and the space or comma before it. -/
def operandsWidth (os : List Text) : Nat := (os.map fun o => o.length + 1).sum

theorem length_joinOperands_add_one (o : Text) (os : List Text) :
    (joinOperands (o :: os)).length + 1 = operandsWidth (o :: os) := by
  induction os generalizing o with
  | nil => simp [joinOperands, operandsWidth]
  | cons o' os ih =>
    have h := ih o'
    simp only [joinOperands, operandsWidth, List.map_cons, List.sum_cons, List.length_append, List.length_cons] at h ⊢
    omega

theorem length_renderOk (d : DecodedInstruction) :
    (renderOk d).length = (mnemonicText d.mnemonic).length + operandsWidth d.operands := by
  unfold renderOk
  split
  case h_1 h => simp [h, operandsWidth]
  case h_2 o os h => simp [h, length_joinOperands_add_one]

/-- No form's operands add more than the 23 characters of `BRANCH` with two `$zero` and an eight-digit target. -/
theorem operandsWidth_operandsOf_le (o : Outputs) (h : o.simm.toInt = sext16 o.imm16) : operandsWidth (operandsOf o) ≤ 23 := by
  have hrs := length_reg_le o.rs
  have hrt := length_reg_le o.rt
  have hrd := length_reg_le o.rd
  have himm := length_hex_imm16_le o.imm16
  unfold operandsOf
  rw [h]
  split
  case h_1 =>
    have hshamt := length_dec_natCast_le (k := 1) (n := o.shamt.toNat) (by omega)
    simp [operandsWidth]
    omega
  case h_8 =>
    have htarget := length_hex_word_le o.jtarget
    simp [operandsWidth]
    omega
  case h_10 =>
    split
    · have hdisp := length_dec_natCast_le (k := 4) (n := o.imm16.toNat) (by omega)
      simp [operandsWidth]
      omega
    · simp [operandsWidth]
      omega
  case h_11 =>
    have htarget := length_hex_word_le o.btarget
    simp [operandsWidth]
    omega
  case h_12 =>
    have hsimm := length_shex_sext16_le o.imm16
    simp [operandsWidth]
    omega
  all_goals simp [operandsWidth] <;> omega

/-- Only `syscall` and `break`, which have no operands, are spelled with more than four letters. -/
theorem length_mnemonicText_le (m : Mnemonic) : (mnemonicText m).length ≤ if formOf m = .none then 7 else 4 := by
  cases m <;> decide

theorem length_mnemonicText_pos (m : Mnemonic) : 0 < (mnemonicText m).length := by
  cases m <;> decide

theorem length_renderOk_decodedAs_le (m : Mnemonic) (c : Config) (x : Inputs) :
    (renderOk (decodedAs m c x)).length ≤ Config.textMax := by
  have hm := length_mnemonicText_le m
  rw [length_renderOk, Config.textMax]
  by_cases hnone : formOf m = .none
  · have hwidth : operandsWidth (decodedAs m c x).operands = 0 := by
      simp only [decodedAs, hnone]
      rfl
    rw [if_pos hnone] at hm
    rw [hwidth]
    exact Nat.le_trans hm (by decide)
  · rw [if_neg hnone] at hm
    have hwidth : operandsWidth (decodedAs m c x).operands ≤ 23 :=
      operandsWidth_operandsOf_le _ (toInt_to32_sext16 _)
    exact Nat.add_le_add hm hwidth

/-! ### The text of a decode -/

theorem combOutputs_text_pos (c : Config) (x : Inputs) : 0 < (combOutputs c x).text.length := by
  rcases combOutputs_cases c x with ⟨m, h⟩ | ⟨k, h⟩
  · rw [h, okOutputs_text, length_renderOk]
    exact Nat.add_pos_left (length_mnemonicText_pos m) _
  · rw [h, failOutputs_text]
    decide

theorem combOutputs_text_le (c : Config) (x : Inputs) : (combOutputs c x).text.length ≤ Config.textMax := by
  rcases combOutputs_cases c x with ⟨m, h⟩ | ⟨k, h⟩
  · rw [h]
    exact length_renderOk_decodedAs_le m c x
  · rw [h, failOutputs_text]
    decide

theorem combOutputs_text_printable (c : Config) (x : Inputs) : AllPrintable (combOutputs c x).text := by
  rcases combOutputs_cases c x with ⟨m, h⟩ | ⟨k, h⟩
  · rw [h]
    exact allPrintable_renderOk (allPrintable_operandsOf _)
  · exact h ▸ allPrintable_renderFail

/-- Settles O35: a decode drives `comb`, whose text is the error text or a mnemonic with the operands of its form; each part's
characters and length are bounded. -/
theorem textHasOneToTwentySevenPrintableCharacters : Obligations.TextHasOneToTwentySevenPrintableCharacters := by
  intro s hd
  obtain ⟨t, ht, hout⟩ := decodes_step_out hd
  refine ⟨t, ht, ?_⟩
  rw [hout]
  exact ⟨combOutputs_text_pos _ _, combOutputs_text_le _ _, combOutputs_text_printable _ _⟩

end Sys2Proof.Machine
end

section
/-! PROOFS. Agreement of the outputs (R11, R22, R94): what a decode drives agrees with itself, and no step breaks it. -/

namespace Sys2Proof.Machine

open Sys2Proof.Safety

theorem formCode_lt (f : Form) : (formCode f).toNat < 12 := by
  cases f <;> decide

theorem failCode_ne_zero (k : FailKind) : failCode k ≠ 0 := by
  cases k <;> decide

/-- Rendering the structured outputs of an `Ok` result gives its text: the spelling stands at its id, and the operands were
read from the fields (R11). -/
theorem renderedText_okOutputs (m : Mnemonic) (c : Config) (x : Inputs) :
    renderedText (okOutputs c x (decodedAs m c x)) = renderOk (decodedAs m c x) := by
  have hname : spellings.getD (mnemonicId m).toNat [] = mnemonicText m := by
    rw [List.getD_eq_getElem?_getD, spellings_getElem?_mnemonicId, Option.getD_some]
  rw [renderOk_eq_line, renderedText, if_pos (okOutputs_ok _ _ _), okOutputs_mnem]
  exact congrArg (line · _) hname

theorem coherent_okOutputs (m : Mnemonic) (c : Config) (x : Inputs) : Coherent (okOutputs c x (decodedAs m c x)) where
  success _ := ⟨rfl, mnemonicId_lt m, formCode_lt _⟩
  failure h := Bool.noConfusion h
  addr := addr26Of_eq_append x.word
  imm := imm16Of_eq_append x.word
  simm := to32_sext16 _
  jump := jumpTarget_toNat _
  text := (renderedText_okOutputs m c x).symm

theorem coherent_failOutputs (c : Config) (x : Inputs) (k : FailKind) : Coherent (failOutputs c x k) where
  success h := Bool.noConfusion h
  failure _ := ⟨failCode_ne_zero k, rfl, rfl⟩
  addr := addr26Of_eq_append x.word
  imm := imm16Of_eq_append x.word
  simm := to32_sext16 _
  jump := jumpTarget_toNat _
  text := rfl

theorem coherent_combOutputs (c : Config) (x : Inputs) : Coherent (combOutputs c x) := by
  rcases combOutputs_cases c x with ⟨m, h⟩ | ⟨k, h⟩
  · exact h ▸ coherent_okOutputs m c x
  · exact h ▸ coherent_failOutputs c x k

/-! ### The three actions of a step -/

theorem inv_loadOutputs_combOutputs (c : Config) (x : Inputs) (s : State) : Inv (loadOutputs (combOutputs c x) s) where
  bounded := by
    rw [loadOutputs_out]
    exact combOutputs_text_le c x
  coherent _ := by
    rw [loadOutputs_out]
    exact coherent_combOutputs c x

/-- After a reset edge `out_valid` is 0 (R107). -/
theorem not_readable_resetEdge {s : State} (hp : s.cfg.pipelined = true) : ¬ Readable (resetEdge s) := by
  simp [Readable, hp]

/-- After an idle edge `out_valid` is 0, or unspecified as no reset edge has come (R22, R107). -/
theorem not_readable_idleEdge {s : State} (hp : s.cfg.pipelined = true) : ¬ Readable (idleEdge s) := by
  rintro (hcomb | ⟨hseen, hvalid⟩)
  · simp [hp] at hcomb
  · rw [idleEdge_resetSeen] at hseen
    simp [hseen] at hvalid

theorem inv_resetEdge {s : State} (hp : s.cfg.pipelined = true) : Inv (resetEdge s) where
  bounded := Outputs.free_text_length_le _
  coherent h := absurd h (not_readable_resetEdge hp)

theorem inv_idleEdge {s : State} (hp : s.cfg.pipelined = true) (hb : s.out.text.length ≤ Config.textMax) :
    Inv (idleEdge s) where
  bounded := by rwa [idleEdge_out]
  coherent h := absurd h (not_readable_idleEdge hp)

/-- Settles O41: a decode drives coherent outputs, and after a reset or an idle edge no output may be read. -/
theorem outputsAgreeAfterEveryStep : Obligations.OutputsAgreeAfterEveryStep := by
  intro s t hinv h
  rcases step_next_cases h with ⟨-, rfl⟩ | ⟨hp, rfl⟩ | ⟨hp, rfl⟩
  · exact inv_loadOutputs_combOutputs _ _ _
  · exact inv_resetEdge (by rwa [presentInputs_cfg])
  · exact inv_idleEdge (by rwa [presentInputs_cfg]) (by simpa using hinv.bounded)

end Sys2Proof.Machine
end

section
/-! PROOFS. Where `pc` goes (R18): into the branch target, and from there into the text of opcodes 4 to 7 alone. -/

namespace Sys2Proof.Machine

open Sys2Proof.Safety

theorem mem_of_lookup {α β : Type} [BEq α] [LawfulBEq α] {l : List (α × β)} {a : α} {b : β} (h : l.lookup a = some b) :
    (a, b) ∈ l := by
  obtain ⟨l₁, l₂, rfl, -⟩ := List.lookup_eq_some_iff.1 h
  simp

/-- The branch form is that of opcodes 4 to 7 alone (R12, R48): the other two tables hold no branch. -/
theorem opcode_of_branch {w : Word} {i : Instr} (h : decode w = .ok i) (hf : formOf i.mnemonic = .branch) :
    4 ≤ (opcodeOf w).toNat ∧ (opcodeOf w).toNat ≤ 7 := by
  have hopcode : ∀ p ∈ opcodeTable, ∀ m, p.2 = .mnemonic m → formOf m = .branch → 4 ≤ p.1.toNat ∧ p.1.toNat ≤ 7 := by
    simp [opcodeTable, formOf]
  have hfunct : ∀ p ∈ functionCodeTable, formOf p.2 ≠ .branch := by decide
  have hselector : ∀ p ∈ selectorTable, formOf p.2 ≠ .branch := by decide
  obtain ⟨m, rfl, ⟨-, hm⟩ | ⟨-, hm⟩ | hm⟩ := decode_ok_cases h <;> rw [assemble_mnemonic] at hf
  · exact absurd hf (hfunct _ (mem_of_lookup hm))
  · exact absurd hf (hselector _ (mem_of_lookup hm))
  · exact hopcode _ (mem_of_lookup hm) m rfl hf

/-- Inputs that hold the same word drive the same outputs but for `btarget`. -/
theorem drivenOutputs_same_word (c : Config) {x x' : Inputs} (hw : x.word = x'.word) :
    drivenOutputs c x = { drivenOutputs c x' with btarget := (drivenOutputs c x).btarget } := by
  simp only [drivenOutputs, hw]

/-- Only the branch form reads `btarget`, so the operands of every other form are those of the word alone. -/
theorem decodedAs_same_word {m : Mnemonic} (hm : formOf m ≠ .branch) (c : Config) {x x' : Inputs}
    (hw : x.word = x'.word) : decodedAs m c x = decodedAs m c x' := by
  unfold decodedAs
  rw [drivenOutputs_same_word c hw]
  generalize formOf m = f at hm ⊢
  cases f
  case branch => exact absurd rfl hm
  all_goals rfl

/-- `comb` of one word at two pcs: the same but for `btarget` and the text (R18). -/
theorem combOutputs_same_word (c : Config) {x x' : Inputs} (hw : x.word = x'.word) :
    { combOutputs c x with btarget := 0, text := [] } = { combOutputs c x' with btarget := 0, text := [] } := by
  unfold combOutputs
  rw [← hw]
  cases decode x.word with
  | ok i => simp only [okOutputs, drivenOutputs, decodedAs, hw]
  | fail k => simp only [failOutputs, drivenOutputs, hw]

theorem combOutputs_text_same_word (c : Config) {x x' : Inputs} (hw : x.word = x'.word)
    (hop : ¬ (4 ≤ (opcodeOf x.word).toNat ∧ (opcodeOf x.word).toNat ≤ 7)) :
    (combOutputs c x).text = (combOutputs c x').text := by
  unfold combOutputs
  rw [← hw]
  cases h : decode x.word with
  | ok i =>
    have hform : formOf i.mnemonic ≠ .branch := fun hf => hop (opcode_of_branch h hf)
    exact congrArg renderOk (decodedAs_same_word hform c hw)
  | fail k => rfl

theorem step_inp {s t : State} (h : step s = .next t) : t.inp = nextInputs s := by
  rcases step_next_cases h with ⟨-, rfl⟩ | ⟨-, rfl⟩ | ⟨-, rfl⟩ <;> simp

/-- Settles O31: `comb` of one word at two pcs differs in the branch target at most, which only the text of the branch form
shows; each of the three actions of a step leaves the ports as presented. -/
theorem pcReachesOnlyTheBranchTarget : Obligations.PcReachesOnlyTheBranchTarget := by
  refine ⟨fun s s' hd hd' hc hw => ?_, fun s t => step_inp⟩
  obtain ⟨t, ht, hout⟩ := decodes_step_out hd
  obtain ⟨t', ht', hout'⟩ := decodes_step_out hd'
  refine ⟨t, t', ht, ht', ?_⟩
  rw [hout, hout', ← hc]
  exact ⟨combOutputs_same_word s.cfg hw, combOutputs_text_same_word s.cfg hw⟩

end Sys2Proof.Machine
end

section
/-! SUPPORT. A decode drives the result of R52's pseudocode (R21, R52): the dispatch tables of the model and those of the
pseudocode answer one mnemonic or one failure, and each form's operands are spelled from the same fields. -/

namespace Sys2Proof.Machine

open Sys2Proof.Safety Sys2Proof.Laws.FixedBits

/-! ### Dispatch -/

theorem eq_zero_of_lookup_regReg {op : BitVec 6} (h : opcodeTable.lookup op = some .regReg) : op = 0 := by
  have htable : ∀ p ∈ opcodeTable, p.2 = .regReg → p.1 = 0 := by decide
  exact htable _ (mem_of_lookup h) rfl

theorem eq_one_of_lookup_regImm {op : BitVec 6} (h : opcodeTable.lookup op = some .regImm) : op = 1 := by
  have htable : ∀ p ∈ opcodeTable, p.2 = .regImm → p.1 = 1 := by decide
  exact htable _ (mem_of_lookup h) rfl

/-- A recognised word carries the fixed bits of its row: the three tables list them. -/
theorem carries_of_decode_ok {w : Word} {i : Instr} (h : decode w = .ok i) : Carries w (fixedBits i.mnemonic) := by
  have hopcode : ∀ p ∈ opcodeTable, ∀ m, p.2 = .mnemonic m → fixedBits m = ⟨p.1, none, none⟩ := by
    simp [opcodeTable, fixedBits]
  have hfunct : ∀ p ∈ functionCodeTable, fixedBits p.2 = ⟨0, some p.1, none⟩ := by
    simp [functionCodeTable, fixedBits]
  have hselector : ∀ p ∈ selectorTable, fixedBits p.2 = ⟨1, none, some p.1⟩ := by
    simp [selectorTable, fixedBits]
  obtain ⟨m, rfl, ⟨ho, hm⟩ | ⟨ho, hm⟩ | ho⟩ := decode_ok_cases h <;> rw [assemble_mnemonic]
  · rw [hfunct _ (mem_of_lookup hm)]
    exact ⟨eq_zero_of_lookup_regReg ho, by simp, by simp⟩
  · rw [hselector _ (mem_of_lookup hm)]
    exact ⟨eq_one_of_lookup_regImm ho, by simp, by simp⟩
  · rw [hopcode _ (mem_of_lookup ho) m rfl]
    exact ⟨rfl, by simp, by simp⟩

/-- The three ways a word fails, as `decode_ok_cases` says the three ways it is recognised (R49, R95). -/
theorem decode_fail_cases {w : Word} {k : FailKind} (h : decode w = .fail k) :
    (k = .unknownOpcode ∧ opcodeTable.lookup (opcodeOf w) = none) ∨
    (k = .unknownFunctionCode ∧ opcodeOf w = 0 ∧ functionCodeTable.lookup (functOf w) = none) ∨
    (k = .unhandledBranchSelector ∧ opcodeOf w = 1 ∧ selectorTable.lookup (rtOf w) = none) := by
  unfold decode decodeRegReg decodeRegImm at h
  split at h
  case h_1 ho =>
    split at h <;> cases h
    exact .inr (.inl ⟨rfl, eq_zero_of_lookup_regReg ho, ‹_›⟩)
  case h_2 ho =>
    split at h <;> cases h
    exact .inr (.inr ⟨rfl, eq_one_of_lookup_regImm ho, ‹_›⟩)
  case h_3 => cases h
  case h_4 ho =>
    cases h
    exact .inl ⟨rfl, ho⟩

/-! ### The slices and integers of the pseudocode

The parentheses of `(rfl)` keep `simp` from rewriting a slice by definition alone, which would leave it as it is in the
decision of an `if` on it. -/

theorem slice_opcode (w : Word) : slice w.toNat 31 26 = (opcodeOf w).toNat := (rfl)
theorem slice_rs (w : Word) : slice w.toNat 25 21 = (rsOf w).toNat := (rfl)
theorem slice_rt (w : Word) : slice w.toNat 20 16 = (rtOf w).toNat := (rfl)
theorem slice_rd (w : Word) : slice w.toNat 15 11 = (rdOf w).toNat := (rfl)
theorem slice_shamt (w : Word) : slice w.toNat 10 6 = (shamtOf w).toNat := (rfl)
theorem slice_funct (w : Word) : slice w.toNat 5 0 = (functOf w).toNat := (rfl)
theorem slice_imm16 (w : Word) : slice w.toNat 15 0 = (imm16Of w).toNat := (rfl)
theorem slice_addr26 (w : Word) : slice w.toNat 25 0 = (addr26Of w).toNat := (rfl)

theorem signed16_toNat (v : BitVec 16) : signed16 v.toNat = sext16 v := by
  rw [sext16_eq_toInt, BitVec.toInt_eq_toNat_cond, signed16]
  split <;> split <;> omega

theorem signed16_toNat_eq_simm (v : BitVec 16) : signed16 v.toNat = (to32 (sext16 v)).toInt := by
  rw [signed16_toNat, toInt_to32_sext16]

/-- The displacement as R52 and as `operandsOf` choose it. -/
theorem hex_or_dec_signed16 (v : BitVec 16) :
    (if v.toNat ≥ 0x8000 then hex v.toNat else dec (signed16 v.toNat)) =
      if v.toNat < 0x8000 then dec v.toNat else hex v.toNat := by
  split
  case isTrue h => rw [if_neg (by omega)]
  case isFalse h => rw [if_pos (by omega), signed16_toNat, sext16_of_lt (by omega)]

theorem emod_eq_branchTarget_toNat (c : Config) (pc : Word) (v : BitVec 16) :
    (((pc.toNat : Int) + 4 + 4 * (if c.branchOffsetSigned then signed16 v.toNat else (v.toNat : Int))) % 2 ^ 32).toNat =
      (branchTarget c pc v).toNat := by
  rw [signed16_toNat]
  rfl

/-! ### The result of the pseudocode -/

/-- R52 answers a word with the fixed bits of a row by that row's mnemonic, its form and the operands of the field outputs. -/
theorem decodeR52_of_carries {m : Mnemonic} (c : Config) {x : Inputs} (h : Carries x.word (fixedBits m)) :
    decodeR52 c.branchOffsetSigned x.word.toNat x.pc.toNat =
      .ok (mnemonicText m) (formCode (formOf m)).toNat (decodedAs m c x).operands := by
  obtain ⟨hopcode, hfunct, hselector⟩ := h
  rw [decodeR52]
  simp only [slice_opcode, slice_rs, slice_rt, slice_rd, slice_shamt, slice_funct, slice_imm16, slice_addr26, hopcode]
  cases m
  case j | jal => exact congrArg (fun target => Result.ok _ 7 [hex target]) (jumpTarget_toNat _).symm
  case lui => rfl
  case lb | lw | sb | sw =>
    exact congrArg (fun disp => Result.ok _ 9 [reg _, disp ++ "(".toList ++ reg _ ++ ")".toList]) (hex_or_dec_signed16 _)
  case beq | bne | blez | bgtz =>
    exact congrArg (fun target => Result.ok _ 10 [reg _, reg _, hex target]) (emod_eq_branchTarget_toNat _ _ _)
  case addi | slti | andi | ori | xori =>
    exact congrArg (fun i => Result.ok _ 11 [reg _, reg _, shex i]) (signed16_toNat_eq_simm _)
  case bltz | bgez =>
    simp only [hselector _ rfl]
    rfl
  all_goals
    simp only [hfunct _ rfl]
    rfl

/-- The pseudocode fails on the words that fail, with the code of their kind. -/
theorem decodeR52_of_decode_fail {w : Word} {k : FailKind} (b : Bool) (pc : Nat) (h : decode w = .fail k) :
    decodeR52 b w.toNat pc = .fail (failCode k).toNat := by
  have hfunct : ∀ f : BitVec 6, functionCodeTable.lookup f = none → functNames.lookup f.toNat = none := by decide
  have hselector : ∀ r : BitVec 5, selectorTable.lookup r = none → r.toNat ≠ 0 ∧ r.toNat ≠ 1 := by decide
  have hopcode : ∀ op : BitVec 6, opcodeTable.lookup op = none → op.toNat ≠ 0 ∧ op.toNat ≠ 1 ∧ op.toNat ∉ [2, 3] ∧
      op.toNat ≠ 15 ∧ op.toNat ∉ [32, 35, 40, 43] ∧ op.toNat ∉ [4, 5, 6, 7] ∧ op.toNat ∉ [8, 10, 12, 13, 14] := by decide
  rw [decodeR52]
  simp only [slice_opcode, slice_rt, slice_funct]
  obtain ⟨rfl, ho⟩ | ⟨rfl, ho, hf⟩ | ⟨rfl, ho, hr⟩ := decode_fail_cases h
  · obtain ⟨h0, h1, hjump, hlui, hmem, hbranch, himm⟩ := hopcode _ ho
    simp only [h0, h1, hjump, hlui, hmem, hbranch, himm, if_false]
    rfl
  · simp only [ho, hfunct _ hf]
    rfl
  · obtain ⟨h0, h1⟩ := hselector _ hr
    simp only [ho, h0, h1, if_false]
    rfl

/-! ### The outputs show it -/

theorem spellings_idxOf_mnemonicText (m : Mnemonic) : spellings.idxOf (mnemonicText m) = (mnemonicId m).toNat := by
  obtain ⟨hlt, hget⟩ := List.getElem?_eq_some_iff.1 (spellings_getElem?_mnemonicId m)
  rw [← hget, spellings_nodup.idxOf_getElem]

theorem shows_okOutputs (c : Config) (x : Inputs) (d : DecodedInstruction) :
    Shows (okOutputs c x d) (.ok (mnemonicText d.mnemonic) (formCode d.form).toNat d.operands) :=
  ⟨rfl, rfl, (spellings_idxOf_mnemonicText _).symm, rfl, renderOk_eq_line d⟩

theorem shows_failOutputs (c : Config) (x : Inputs) (k : FailKind) :
    Shows (failOutputs c x k) (.fail (failCode k).toNat) :=
  ⟨rfl, rfl, rfl, rfl, rfl⟩

/-- What a decode drives is `comb(word, pc)` in the sense of the statements. -/
theorem isCombOf_combOutputs (c : Config) (x : Inputs) : IsCombOf c x (combOutputs c x) := by
  unfold combOutputs
  cases h : decode x.word with
  | ok i =>
    refine ⟨?_, drivenBy_okOutputs _ _ _⟩
    rw [decodeR52_of_carries c (carries_of_decode_ok h)]
    exact shows_okOutputs c x (decodedAs i.mnemonic c x)
  | fail k =>
    refine ⟨?_, drivenBy_failOutputs _ _ _⟩
    rw [decodeR52_of_decode_fail _ _ h]
    exact shows_failOutputs c x k

end Sys2Proof.Machine
end

section
/-! PROOFS. The schedule (R30, R96, R108, R109, R111): what a run keeps and takes from it, and the result at each place. -/

namespace Sys2Proof.Machine

open Sys2Proof.Safety

/-! ### What a step keeps -/

theorem step_cfg {s t : State} (h : step s = .next t) : t.cfg = s.cfg := by
  rcases step_next_cases h with ⟨-, rfl⟩ | ⟨-, rfl⟩ | ⟨-, rfl⟩ <;> simp

theorem step_pending {s t : State} (h : step s = .next t) : t.pending = s.pending.tail := by
  rcases step_next_cases h with ⟨-, rfl⟩ | ⟨-, rfl⟩ | ⟨-, rfl⟩ <;> simp

/-- A reset edge has come after a step exactly if one had come before or the step is one (R107). -/
theorem step_resetSeen {s t : State} (h : step s = .next t) :
    t.resetSeen = (s.resetSeen || (s.cfg.pipelined && (nextInputs s).rst)) := by
  rcases step_cases h with ⟨hd, -⟩ | ⟨hp, hr, rfl⟩ | ⟨-, hr, -, rfl⟩
  · rw [step_eq_loadOutputs_of_decodes hd] at h
    cases h
    cases hp : s.cfg.pipelined
    · simp
    · simp [(hd hp).1]
  · simp [hp, hr]
  · simp [hr]

/-! ### What a run keeps -/

/-- One more step at the end of a run. -/
theorem run_succ_of_run {k : Nat} {s t u : State} (hrun : Host.Core.run Sys2Proof.core k s = .next t)
    (hstep : step t = .next u) : Host.Core.run Sys2Proof.core (k + 1) s = .next u := by
  induction k generalizing s with
  | zero =>
    cases hrun
    exact run_succ_of_step 0 hstep
  | succ k ih =>
    obtain ⟨s', hs'⟩ := step_total s
    rw [run_succ_of_step k hs'] at hrun
    rw [run_succ_of_step (k + 1) hs']
    exact ih hrun

/-- A run within the schedule takes an entry at each step, and a reset edge has come after it exactly if one had come before
or an entry it took has `rst = 1`. -/
theorem run_within_pending {k : Nat} {s : State} (hk : k ≤ s.pending.length) :
    ∃ t : State, Host.Core.run Sys2Proof.core k s = .next t ∧ t.cfg = s.cfg ∧ t.pending = s.pending.drop k ∧
      t.resetSeen = (s.resetSeen || (s.cfg.pipelined && (s.pending.take k).any (·.rst))) := by
  induction k with
  | zero => exact ⟨s, rfl, rfl, rfl, by simp⟩
  | succ k ih =>
    obtain ⟨t, hrun, hcfg, hpending, hseen⟩ := ih (Nat.le_of_succ_le hk)
    obtain ⟨u, hu⟩ := step_total t
    have hnext : nextInputs t = s.pending[k] := by
      simp [nextInputs, hpending, List.head?_drop, List.getElem?_eq_getElem hk]
    refine ⟨u, run_succ_of_run hrun hu, ?_, ?_, ?_⟩
    · rw [step_cfg hu, hcfg]
    · rw [step_pending hu, hpending, List.tail_drop]
    · rw [step_resetSeen hu, hseen, hcfg, hnext, Bool.or_assoc, ← Bool.and_or_distrib_left,
        List.take_succ_eq_append_getElem hk, List.any_append, List.any_cons, List.any_nil, Bool.or_false]

/-- Settles O40: the `k` entries before leave the parameters as they are and the entry next in the schedule, whatever they
are; the step that takes it then decodes, and drives `comb` of it. -/
theorem scheduleGivesEachResultAtItsOwnStep : Obligations.ScheduleGivesEachResultAtItsOwnStep := by
  intro s k x hx hdecodes
  obtain ⟨hk, -⟩ := List.getElem?_eq_some_iff.1 hx
  obtain ⟨t, hrun, hcfg, hpending, hseen⟩ := run_within_pending (Nat.le_of_lt hk)
  have hnext : nextInputs t = x := by simp [nextInputs, hpending, hx]
  have hd : Decodes t := by
    rw [← hcfg, ← hnext] at hdecodes
    exact hdecodes
  have hstep := step_eq_loadOutputs_of_decodes hd
  refine ⟨_, run_succ_of_run hrun hstep, ?_, ?_, ?_, ?_, ?_⟩
  · rw [step_inp hstep, hnext]
  · rw [step_cfg hstep, hcfg]
  · rw [step_pending hstep, hpending, List.tail_drop]
  · rw [loadOutputs_out, hcfg, hnext]
    exact isCombOf_combOutputs s.cfg x
  · intro hp hreset
    have hcome : t.resetSeen = true := by
      rw [hseen]
      simpa [hp] using hreset
    simp [hcfg, hp, hcome]

end Sys2Proof.Machine
end

section
/-! PROOFS. The decoding step against the pseudocode (R21, R52): it drives `comb`, which shows R52's result. -/

namespace Sys2Proof.Machine

open Sys2Proof.Safety

/-- Settles O37: a decoding step loads `comb` of the inputs presented, which is R52's result with the driven outputs beside
it; the load writes 1 to `out_valid` once a reset edge has come. -/
theorem decodingStepRefinesThePseudocode : Obligations.DecodingStepRefinesThePseudocode := by
  intro s hd
  refine ⟨_, step_eq_loadOutputs_of_decodes hd, ?_, fun hp hseen => ?_⟩
  · rw [loadOutputs_out]
    exact isCombOf_combOutputs s.cfg (nextInputs s)
  · simp [hp, hseen]

end Sys2Proof.Machine
end

section
/-! SUPPORT and PROOFS. The fields of a word (R34 to R37), what its dispatch reads of them (R39 to R41, R46, R95), and the bits
that nothing reads (R42). -/

namespace Sys2Proof.Machine

open Sys2Proof.Safety

/-! ### Fields and layouts -/

theorem field_toNat (w : Word) (offset width : Nat) :
    (field w offset width).toNat = w.toNat / 2 ^ offset % 2 ^ width := by
  rw [field, BitVec.toNat_ofNat, Nat.shiftRight_eq_div_pow]

theorem drivenBy_combOutputs (c : Config) (x : Inputs) : DrivenBy c x (combOutputs c x) :=
  (isCombOf_combOutputs c x).2

/-- Settles O7: the slices of the pseudocode are the fields, and a decoding step drives `comb`, which holds them for every
word. -/
theorem fieldsAreExtractedForEveryWord : Obligations.FieldsAreExtractedForEveryWord := by
  refine ⟨field_toNat, fun w => ?_, fun s hd => ?_⟩
  · simp [slice_opcode, slice_rs, slice_rt, slice_rd, slice_shamt, slice_funct, slice_imm16, slice_addr26]
  · obtain ⟨t, ht, hout⟩ := decodes_step_out hd
    obtain ⟨hopcode, hrs, hrt, hrd, hshamt, hfunct, himm16, haddr26, -⟩ := drivenBy_combOutputs s.cfg (nextInputs s)
    rw [← hout] at hopcode hrs hrt hrd hshamt hfunct himm16 haddr26
    exact ⟨t, ht, hopcode, hrs, hrt, hrd, hshamt, hfunct, himm16, haddr26⟩

/-- The jump layout (R36). -/
theorem eq_opcodeOf_append_addr26Of (w : Word) : w = opcodeOf w ++ addr26Of w := by
  rw [opcodeOf, addr26Of, field_eq_extractLsb', field_eq_extractLsb',
    BitVec.extractLsb'_append_extractLsb'_eq_extractLsb' (by decide), BitVec.extractLsb'_eq_self]

/-- The immediate layout (R35). -/
theorem eq_append_imm16Of (w : Word) : w = opcodeOf w ++ rsOf w ++ rtOf w ++ imm16Of w := by
  have h := eq_opcodeOf_append_addr26Of w
  rw [addr26Of_eq_append, BitVec.append_assoc, BitVec.cast_eq] at h
  rwa [BitVec.append_assoc, BitVec.append_assoc, BitVec.cast_eq, BitVec.cast_eq]

/-- The register-register layout (R34). -/
theorem eq_append_functOf (w : Word) : w = opcodeOf w ++ rsOf w ++ rtOf w ++ rdOf w ++ shamtOf w ++ functOf w := by
  have h := eq_append_imm16Of w
  rw [imm16Of_eq_append, BitVec.append_assoc (x₁ := rdOf w), BitVec.cast_eq] at h
  rwa [BitVec.append_assoc (x₃ := functOf w), BitVec.cast_eq, BitVec.append_assoc (x₂ := rdOf w), BitVec.cast_eq]

/-- Settles O8: the jump layout cuts the word in two, and each of the other two cuts the last field of the one before. -/
theorem layoutsPartitionTheWord : Obligations.LayoutsPartitionTheWord :=
  fun w => ⟨eq_append_functOf w, eq_append_imm16Of w, eq_opcodeOf_append_addr26Of w⟩

/-! ### The absent codes (R12, R13, R15) -/

theorem opcodeTable_lookup_eq_none_iff : ∀ op, opcodeTable.lookup op = none ↔ absentOpcode op.toNat := by
  unfold absentOpcode
  decide

theorem functionCodeTable_lookup_eq_none_iff : ∀ f, functionCodeTable.lookup f = none ↔ absentFunct f.toNat := by
  unfold absentFunct
  decide

theorem selectorTable_lookup_eq_none_iff : ∀ r, selectorTable.lookup r = none ↔ 2 ≤ r.toNat := by
  decide

/-! ### The three failures -/

theorem decode_eq_unknownOpcode_iff (w : Word) :
    decode w = .fail .unknownOpcode ↔ absentOpcode (opcodeOf w).toNat := by
  rw [← opcodeTable_lookup_eq_none_iff]
  refine ⟨fun h => ?_, fun ho => by rw [decode, ho]⟩
  simpa using decode_fail_cases h

theorem decode_eq_unknownFunctionCode_iff (w : Word) :
    decode w = .fail .unknownFunctionCode ↔ opcodeOf w = 0 ∧ absentFunct (functOf w).toNat := by
  rw [← functionCodeTable_lookup_eq_none_iff]
  refine ⟨fun h => ?_, fun ⟨ho, hf⟩ => by rw [decode_of_regReg w ho, decodeRegReg, hf]⟩
  simpa using decode_fail_cases h

theorem decode_eq_unhandledBranchSelector_iff (w : Word) :
    decode w = .fail .unhandledBranchSelector ↔ opcodeOf w = 1 ∧ 2 ≤ (rtOf w).toNat := by
  rw [← selectorTable_lookup_eq_none_iff]
  refine ⟨fun h => ?_, fun ⟨ho, hr⟩ => by rw [decode_of_regImm w ho, decodeRegImm, hr]⟩
  simpa using decode_fail_cases h

/-- Opcodes 0 and 1 stand in the OpcodeTable (R12). -/
theorem not_absentOpcode_of_sentinel {op : BitVec 6} (h : op = 0 ∨ op = 1) : ¬ absentOpcode op.toNat := by
  rw [← opcodeTable_lookup_eq_none_iff]
  rcases h with rfl | rfl <;> decide

/-- Settles O13: each kind is answered exactly where its table has no entry, and the tables' absent codes are those of the
spec; the first opcode check leaves the other two causes the opcodes 0 and 1. -/
theorem failureKindsAreExactlyTheAbsentCodes : Obligations.FailureKindsAreExactlyTheAbsentCodes :=
  fun w => ⟨decode_eq_unknownOpcode_iff w, decode_eq_unknownFunctionCode_iff w, decode_eq_unhandledBranchSelector_iff w,
    fun ⟨habsent, h⟩ => not_absentOpcode_of_sentinel h habsent⟩

/-- A word fails alike whenever the fields that its dispatch reads are the same (R42). -/
theorem decode_fail_of_same_dispatch {w w' : Word} {k : FailKind} (hop : opcodeOf w' = opcodeOf w)
    (hfunct : opcodeOf w = 0 → functOf w' = functOf w) (hselector : opcodeOf w = 1 → rtOf w' = rtOf w)
    (h : decode w = .fail k) : decode w' = .fail k := by
  cases k with
  | unknownOpcode =>
    rw [decode_eq_unknownOpcode_iff] at h ⊢
    rwa [hop]
  | unknownFunctionCode =>
    rw [decode_eq_unknownFunctionCode_iff] at h ⊢
    rwa [hop, hfunct h.1]
  | unhandledBranchSelector =>
    rw [decode_eq_unhandledBranchSelector_iff] at h ⊢
    rwa [hop, hselector h.1]

/-! ### The bits that are read (R42) -/

/-- Words that agree on the bits of a mask have the same field wherever the mask covers it. -/
theorem field_eq_of_covered {w w' mask : Word} (h : w' &&& mask = w &&& mask) {offset width : Nat}
    (hmask : field mask offset width = BitVec.allOnes width) : field w' offset width = field w offset width := by
  rw [field_eq_extractLsb'] at hmask
  have hfield := congrArg (BitVec.extractLsb' offset width) h
  rwa [BitVec.extractLsb'_and, BitVec.extractLsb'_and, hmask, BitVec.and_allOnes, BitVec.and_allOnes] at hfield

theorem opcodeOf_readBits (f : Form) : opcodeOf (readBits f) = BitVec.allOnes 6 := by
  cases f <;> decide

/-- Form by form, the fields that an instruction holds are among those its mask covers (R48). -/
theorem assemble_of_same_readBits {m : Mnemonic} {w w' : Word}
    (h : w' &&& readBits (formOf m) = w &&& readBits (formOf m)) : assemble m w' = assemble m w := by
  have hrs : rsOf (readBits (formOf m)) = BitVec.allOnes 5 → rsOf w' = rsOf w := field_eq_of_covered h
  have hrt : rtOf (readBits (formOf m)) = BitVec.allOnes 5 → rtOf w' = rtOf w := field_eq_of_covered h
  have hrd : rdOf (readBits (formOf m)) = BitVec.allOnes 5 → rdOf w' = rdOf w := field_eq_of_covered h
  have hshamt : shamtOf (readBits (formOf m)) = BitVec.allOnes 5 → shamtOf w' = shamtOf w := field_eq_of_covered h
  have himm16 : imm16Of (readBits (formOf m)) = BitVec.allOnes 16 → imm16Of w' = imm16Of w := field_eq_of_covered h
  have haddr26 : addr26Of (readBits (formOf m)) = BitVec.allOnes 26 → addr26Of w' = addr26Of w := field_eq_of_covered h
  cases m
  case sll | srl | sra => simp only [assemble, hrd rfl, hrt rfl, hshamt rfl]
  case jr | jalr => simp only [assemble, hrs rfl]
  case syscall | break_ => rfl
  case mfhi | mthi | mflo | mtlo => simp only [assemble, hrd rfl]
  case mult | div => simp only [assemble, hrs rfl, hrt rfl]
  case add | sub | and | or | xor | nor | slt => simp only [assemble, hrd rfl, hrs rfl, hrt rfl]
  case bltz | bgez => simp only [assemble, hrs rfl, himm16 rfl]
  case j | jal => simp only [assemble, haddr26 rfl]
  case lui => simp only [assemble, hrt rfl, himm16 rfl]
  case lb | lw | sb | sw | beq | bne | blez | bgtz | addi | slti | andi | ori | xori =>
    simp only [assemble, hrt rfl, hrs rfl, himm16 rfl]

/-- The mask covers what the dispatch reads, in each of the three ways a word is recognised, and the fields rendered. -/
theorem decode_ok_of_same_readBits {w w' : Word} {i : Instr} (hi : decode w = .ok i)
    (h : w' &&& readBits (formOf i.mnemonic) = w &&& readBits (formOf i.mnemonic)) : decode w' = .ok i := by
  have hfunct : ∀ p ∈ functionCodeTable, functOf (readBits (formOf p.2)) = BitVec.allOnes 6 := by decide
  have hselector : ∀ p ∈ selectorTable, rtOf (readBits (formOf p.2)) = BitVec.allOnes 5 := by decide
  obtain ⟨m, rfl, hway⟩ := decode_ok_cases hi
  rw [assemble_mnemonic] at h
  have hop : opcodeOf w' = opcodeOf w := field_eq_of_covered h (opcodeOf_readBits _)
  rw [← assemble_of_same_readBits h]
  rw [← hop] at hway
  obtain ⟨ho, hm⟩ | ⟨ho, hm⟩ | ho := hway
  · have hmask : functOf (readBits (formOf m)) = BitVec.allOnes 6 := hfunct (_, m) (mem_of_lookup hm)
    have hf : functOf w' = functOf w := field_eq_of_covered h hmask
    exact decode_of_funct w' m (eq_zero_of_lookup_regReg ho) (hf ▸ hm)
  · have hmask : rtOf (readBits (formOf m)) = BitVec.allOnes 5 := hselector (_, m) (mem_of_lookup hm)
    have hr : rtOf w' = rtOf w := field_eq_of_covered h hmask
    exact decode_of_selector w' m (eq_one_of_lookup_regImm ho) (hr ▸ hm)
  · exact decode_of_opcode w' m ho

theorem step_eq_exec_of_decodes {s : State} {i : Instr} (hd : Decodes s) (hi : decode (nextInputs s).word = .ok i) :
    step s = exec i (presentInputs s) := by
  rw [step_of_decodes hd, decodeInputs, presentInputs_inp, hi]

/-- Decoding steps that recognise the same instruction, at the same pc and offset setting, return the same result. -/
theorem step_same_instruction {s s' : State} {i : Instr} (hd : Decodes s) (hd' : Decodes s')
    (hc : s.cfg.branchOffsetSigned = s'.cfg.branchOffsetSigned) (hpc : (nextInputs s).pc = (nextInputs s').pc)
    (hi : decode (nextInputs s).word = .ok i) (hi' : decode (nextInputs s').word = .ok i) :
    ∃ d, step s = returnOk d (presentInputs s) ∧ step s' = returnOk d (presentInputs s') := by
  rw [step_eq_exec_of_decodes hd hi, step_eq_exec_of_decodes hd' hi']
  refine exec_same_instruction i fun _ imm16 => ?_
  rw [presentInputs_cfg, presentInputs_cfg, presentInputs_inp, presentInputs_inp, hpc, branchTarget_congr hc]

/-- Settles O14: the bits a form reads cover all that dispatch and rendering read, so the words decode to one instruction,
which returns one result; a failure is told by the dispatch fields alone. -/
theorem ignoredFieldsChangeNothing : Obligations.IgnoredFieldsChangeNothing := by
  refine ⟨fun w w' i => decode_ok_of_same_readBits, fun s s' i hd hd' hc hpc hi hbits => ?_,
    fun w w' k => decode_fail_of_same_dispatch⟩
  obtain ⟨d, hs, hs'⟩ := step_same_instruction hd hd' hc hpc hi (decode_ok_of_same_readBits hi hbits)
  exact ⟨_, _, hs, hs', by simp, by simp⟩

/-- Settles O15: the words are given, so `decode` is evaluated on each. -/
theorem wordsOfTheSpecDecodeAsItSays : Obligations.WordsOfTheSpecDecodeAsItSays := by
  unfold Obligations.WordsOfTheSpecDecodeAsItSays
  decide

end Sys2Proof.Machine
end

section
/-! SUPPORT and PROOFS. The sign-extender (R38), the targets (R43, R44) and the displacement (R47). -/

namespace Sys2Proof.Machine

open Sys2Proof.Safety

/-! ### The sign-extender -/

theorem sext16_of_ge {v : BitVec 16} (h : 0x8000 ≤ v.toNat) : sext16 v = (v.toNat : Int) - 65536 := by
  rw [sext16, BitVec.msb_eq_decide, if_pos (by simpa using h)]

/-- Settles O9: the two sides of 2^15, from which the range follows; the `simm` port holds the two's complement reading. -/
theorem signExtenderFollowsBitFifteen : Obligations.SignExtenderFollowsBitFifteen := by
  refine ⟨fun v => ⟨sext16_of_lt, sext16_of_ge, ?_⟩, fun c x => to32_sext16 _⟩
  rcases Nat.lt_or_ge v.toNat 0x8000 with h | h
  · rw [sext16_of_lt h]
    omega
  · rw [sext16_of_ge h]
    omega

/-! ### The branch target -/

theorem branchTarget_toNat (c : Config) (pc : Word) (imm16 : BitVec 16) :
    (branchTarget c pc imm16).toNat = (((pc.toNat : Int) + 4 + 4 * branchOffset c imm16) % 2 ^ 32).toNat := by
  rw [branchTarget, to32, BitVec.toNat_ofInt]
  rfl

theorem branchOffset_of_lt_or_raw {c : Config} {imm16 : BitVec 16}
    (h : imm16.toNat < 0x8000 ∨ c.branchOffsetSigned = false) : branchOffset c imm16 = imm16.toNat := by
  rcases h with h | h
  · rw [branchOffset, sext16_of_lt h, ite_self]
  · simp [branchOffset, h]

theorem branchOffset_of_ge {c : Config} {imm16 : BitVec 16} (h : 0x8000 ≤ imm16.toNat)
    (hc : c.branchOffsetSigned = true) : branchOffset c imm16 = (imm16.toNat : Int) - 65536 := by
  rw [branchOffset, if_pos hc, sext16_of_ge h]

/-- Settles O32: the offset is the field, or 2^16 less, and taking 4 * 2^16 off is adding 2^32 - 2^18 modulo 2^32. -/
theorem branchTargetWrapsModuloTwoToThe32 : Obligations.BranchTargetWrapsModuloTwoToThe32 := by
  refine ⟨fun c pc imm16 => ⟨fun h => ?_, fun ⟨h, hc⟩ => ?_⟩, fun c x => rfl⟩
  · rw [branchTarget_toNat, branchOffset_of_lt_or_raw h]
    omega
  · rw [branchTarget_toNat, branchOffset_of_ge h hc]
    omega

/-! ### The jump target -/

/-- Settles O33: the target is the field with two zero bits below it, and the field is at most 2^26 - 1. -/
theorem jumpTargetIsFourTimesTheField : Obligations.JumpTargetIsFourTimesTheField := by
  refine ⟨fun addr26 => ⟨jumpTarget_toNat addr26, ?_⟩, fun c x => jumpTarget_toNat _⟩
  have hlt := addr26.isLt
  rw [jumpTarget_toNat]
  omega

/-! ### The displacement -/

/-- Settles O34: on each side of 0x8000 the displacement is `hex` or `dec` of the field, whose digits are its numeral. -/
theorem displacementIsHexFromEightThousandHex : Obligations.DisplacementIsHexFromEightThousandHex := by
  refine fun imm16 => ⟨fun h => ⟨digits 16 imm16.toNat, displacement_of_ge h, ?_⟩, fun h => ?_⟩
  · exact numeral_digits (by decide) (by decide) _
  · rw [displacement_of_lt h, dec_of_nonneg (Int.natCast_nonneg _)]
    exact numeral_digits (by decide) (by decide) _

end Sys2Proof.Machine
end

section
/-! SUPPORT and PROOFS. What a meaning returns is well formed (R48): no operand is empty or holds a separator of R6. -/

namespace Sys2Proof.Machine

open Sys2Proof.Safety

/-! ### Texts with no separator -/

/-- The text holds neither a space nor a comma, which R6 puts between operands. -/
def NoSeparator (t : Text) : Prop := ∀ ch ∈ t, ch ≠ ' ' ∧ ch ≠ ','

@[simp] theorem noSeparator_nil : NoSeparator [] := by simp [NoSeparator]

@[simp] theorem noSeparator_cons (ch : Char) (t : Text) :
    NoSeparator (ch :: t) ↔ (ch ≠ ' ' ∧ ch ≠ ',') ∧ NoSeparator t :=
  List.forall_mem_cons

@[simp] theorem noSeparator_append (t u : Text) : NoSeparator (t ++ u) ↔ NoSeparator t ∧ NoSeparator u :=
  List.forall_mem_append

/-- A given text is checked by evaluation. -/
theorem noSeparator_of_all {t : Text} (h : t.all (fun ch => ch ≠ ' ' ∧ ch ≠ ',') = true) : NoSeparator t := by
  simpa [NoSeparator] using h

theorem noSeparator_registerNameTable : NoSeparator registerNameTable.flatten := noSeparator_of_all (by decide)

theorem noSeparator_hexDigits : NoSeparator "0123456789abcdef".toList := noSeparator_of_all (by decide)

@[simp] theorem noSeparator_reg (i : RegIndex) : NoSeparator (reg i) := fun ch hch =>
  noSeparator_registerNameTable ch
    (List.mem_flatten_of_mem (List.mem_of_getElem? (registerNameTable_getElem?_toNat i)) hch)

theorem noSeparator_digits {b : Nat} (hb : 2 ≤ b) (hb16 : b ≤ 16) (n : Nat) : NoSeparator (digits b n) := fun ch hch =>
  noSeparator_hexDigits ch (List.mem_of_mem_take ((numeral_digits hb hb16 n).digit ch hch))

@[simp] theorem noSeparator_hex (n : Nat) : NoSeparator (hex n) := by
  simp [hex, noSeparator_digits]

@[simp] theorem noSeparator_shex (i : Int) : NoSeparator (shex i) := by
  rw [shex]
  split <;> simp

@[simp] theorem noSeparator_dec (i : Int) : NoSeparator (dec i) := by
  rw [dec]
  split <;> simp [noSeparator_digits]

@[simp] theorem noSeparator_displacement (imm16 : BitVec 16) : NoSeparator (displacement imm16) := by
  rw [displacement]
  split <;> simp

@[simp] theorem noSeparator_memOperand (rs : RegIndex) (imm16 : BitVec 16) : NoSeparator (memOperand rs imm16) := by
  simp [memOperand]

/-! ### Nonempty operands -/

@[simp] theorem reg_ne_nil (i : RegIndex) : reg i ≠ [] := by
  have htable : ∀ name ∈ registerNameTable, name ≠ [] := by decide
  exact htable _ (List.mem_of_getElem? (registerNameTable_getElem?_toNat i))

@[simp] theorem hex_ne_nil (n : Nat) : hex n ≠ [] := List.cons_ne_nil _ _

@[simp] theorem shex_ne_nil (i : Int) : shex i ≠ [] := by
  rw [shex]
  split <;> simp

@[simp] theorem dec_ne_nil (i : Int) : dec i ≠ [] := by
  rw [dec]
  split
  · simp
  · exact (numeral_digits (by decide) (by decide) _).nonempty

@[simp] theorem memOperand_ne_nil (rs : RegIndex) (imm16 : BitVec 16) : memOperand rs imm16 ≠ [] := by
  simp [memOperand]

/-! ### Well-formedness -/

theorem operandsClean_iff (d : DecodedInstruction) :
    d.operandsClean = true ↔ ∀ o ∈ d.operands, o ≠ [] ∧ NoSeparator o := by
  simp [DecodedInstruction.operandsClean, NoSeparator]

theorem wellFormed_iff (d : DecodedInstruction) :
    d.wellFormed = true ↔ d.form = formOf d.mnemonic ∧ d.operands.length = d.form.operandCount ∧
      ∀ o ∈ d.operands, o ≠ [] ∧ NoSeparator o := by
  simp [DecodedInstruction.wellFormed, DecodedInstruction.formFits, DecodedInstruction.countFits, operandsClean_iff,
    and_assoc]

/-- Settles O36: each meaning names its mnemonic, that mnemonic's form and as many operands as the form has; they are register
names and numbers, with brackets in the MEM form, and none of these is empty or holds a separator. -/
theorem everyMeaningReturnsAWellFormedInstruction : Obligations.EveryMeaningReturnsAWellFormedInstruction := by
  intro i s
  cases i <;> exact ⟨_, rfl, (wellFormed_iff _).2 ⟨rfl, rfl, by simp⟩, rfl⟩

end Sys2Proof.Machine
end

section
/-! SUPPORT and PROOFS. An operand form's statement from two facts for each of its instructions: the function code that selects
it, and the operands that its meaning returns. The register-register family (R53 to R72). -/

namespace Sys2Proof.Machine

open Sys2Proof.Safety

/-- What a meaning that returns `Ok` with these operands always gives: the id and form code of its mnemonic, the line as text,
and the frame of the shared `returnOk`. -/
theorem alwaysGives_of_exec {i : Instr} {operands : State → List Text}
    (h : ∀ s, exec i s = returnOk ⟨i.mnemonic, formOf i.mnemonic, operands s⟩ s) :
    AlwaysGives i (mnemonicId i.mnemonic) (formCode (formOf i.mnemonic))
      fun s => line (mnemonicText i.mnemonic) (operands s) := by
  intro s
  have hgives := returnOk_givesOk ⟨i.mnemonic, formOf i.mnemonic, operands s⟩ s
  rwa [← h s, renderOk_eq_line] at hgives

/-- The selecting half of a form's statement, for the table's entry `(f, m)` (R40). -/
theorem decode_of_functionCode {w : Word} {f : BitVec 6} (m : Mnemonic) (hop : opcodeOf w = 0)
    (hm : functionCodeTable.lookup f = some m) (hf : functOf w = f) : decode w = .ok (assemble m w) :=
  decode_of_funct w m hop (hf ▸ hm)

/-- Settles O16: function codes 0, 2 and 3 of the table; each meaning returns rd, rt and the decimal amount. -/
theorem shiftsPrintRdRtAndTheDecimalAmount : Obligations.ShiftsPrintRdRtAndTheDecimalAmount := by
  refine ⟨fun w hop => ⟨?sll, ?srl, ?sra⟩, fun rd rt shamt => ⟨?_, ?_, ?_⟩⟩
  case sll => exact decode_of_functionCode .sll hop rfl
  case srl => exact decode_of_functionCode .srl hop rfl
  case sra => exact decode_of_functionCode .sra hop rfl
  all_goals exact alwaysGives_of_exec fun _ => rfl

/-- Settles O17: function codes 8 and 9 of the table; each meaning returns rs alone. -/
theorem registerJumpsPrintRsAlone : Obligations.RegisterJumpsPrintRsAlone := by
  refine ⟨fun w hop => ⟨?jr, ?jalr⟩, fun rs => ⟨?_, ?_⟩⟩
  case jr => exact decode_of_functionCode .jr hop rfl
  case jalr => exact decode_of_functionCode .jalr hop rfl
  all_goals exact alwaysGives_of_exec fun _ => rfl

/-- Settles O18: function codes 12 and 13 of the table; each meaning returns no operand, and the line is then the name. -/
theorem syscallAndBreakPrintTheMnemonicAlone : Obligations.SyscallAndBreakPrintTheMnemonicAlone := by
  refine ⟨fun w hop => ⟨?syscall, ?break_⟩, ?_, ?_⟩
  case syscall => exact decode_of_functionCode .syscall hop rfl
  case break_ => exact decode_of_functionCode .break_ hop rfl
  all_goals exact alwaysGives_of_exec (operands := fun _ => []) fun _ => rfl

/-- Settles O19: function codes 16 to 19 of the table; each meaning returns rd alone, those that write HI and LO too. -/
theorem movesPrintRdAlone : Obligations.MovesPrintRdAlone := by
  refine ⟨fun w hop => ⟨?mfhi, ?mthi, ?mflo, ?mtlo⟩, fun rd => ⟨?_, ?_, ?_, ?_⟩⟩
  case mfhi => exact decode_of_functionCode .mfhi hop rfl
  case mthi => exact decode_of_functionCode .mthi hop rfl
  case mflo => exact decode_of_functionCode .mflo hop rfl
  case mtlo => exact decode_of_functionCode .mtlo hop rfl
  all_goals exact alwaysGives_of_exec fun _ => rfl

/-- Settles O20: function codes 24 and 26 of the table; each meaning returns rs and rt, and compares neither with 0. -/
theorem multAndDivPrintRsRt : Obligations.MultAndDivPrintRsRt := by
  refine ⟨fun w hop => ⟨?mult, ?div⟩, fun rs rt => ⟨?_, ?_⟩⟩
  case mult => exact decode_of_functionCode .mult hop rfl
  case div => exact decode_of_functionCode .div hop rfl
  all_goals exact alwaysGives_of_exec fun _ => rfl

/-- Settles O21: function codes 32, 34, 36 to 39 and 42 of the table; each meaning returns rd, rs and rt. -/
theorem arithmeticAndLogicPrintRdRsRt : Obligations.ArithmeticAndLogicPrintRdRsRt := by
  refine ⟨fun w hop => ⟨?add, ?sub, ?and, ?or, ?xor, ?nor, ?slt⟩, fun rd rs rt => ⟨?_, ?_, ?_, ?_, ?_, ?_, ?_⟩⟩
  case add => exact decode_of_functionCode .add hop rfl
  case sub => exact decode_of_functionCode .sub hop rfl
  case and => exact decode_of_functionCode .and hop rfl
  case or => exact decode_of_functionCode .or hop rfl
  case xor => exact decode_of_functionCode .xor hop rfl
  case nor => exact decode_of_functionCode .nor hop rfl
  case slt => exact decode_of_functionCode .slt hop rfl
  all_goals exact alwaysGives_of_exec fun _ => rfl

end Sys2Proof.Machine
end

section
/-! SUPPORT and PROOFS. The register-immediate family (R73 to R75), and the error value of a word that no table recognises
(R92 to R94). -/

namespace Sys2Proof.Machine

open Sys2Proof.Safety

/-! ### The outputs of a failing and of a recognised word -/

theorem combOutputs_of_decode_fail {c : Config} {x : Inputs} {k : FailKind} (h : decode x.word = .fail k) :
    combOutputs c x = failOutputs c x k := by
  rw [combOutputs, h]

theorem combOutputs_of_decode_ok {c : Config} {x : Inputs} {i : Instr} (h : decode x.word = .ok i) :
    combOutputs c x = okOutputs c x (decodedAs i.mnemonic c x) := by
  rw [combOutputs, h]

/-- A failing word drives `ok` 0 and its kind (R93). -/
theorem combOutputs_ok_err_of_decode_fail {c : Config} {x : Inputs} {k : FailKind} (h : decode x.word = .fail k) :
    (combOutputs c x).ok = false ∧ (combOutputs c x).err = failCode k := by
  rw [combOutputs_of_decode_fail h]
  exact ⟨failOutputs_ok _ _ _, failOutputs_err _ _ _⟩

theorem decode_ok_iff_combOutputs_ok (c : Config) (x : Inputs) :
    (∃ i, decode x.word = .ok i) ↔ (combOutputs c x).ok = true := by
  cases h : decode x.word with
  | ok i => simp [combOutputs_of_decode_ok h]
  | fail k => simp [combOutputs_of_decode_fail h]

/-- Outputs that agree with each other show a failure by `mnem` 0, `form` 0 and the text "error" (R8, R94). -/
theorem error_value_of_coherent {o : Outputs} (ho : Coherent o) (h : o.ok = false) :
    o.mnem = 0 ∧ o.form = 0 ∧ o.text = "error".toList := by
  obtain ⟨-, hmnem, hform⟩ := ho.failure h
  exact ⟨hmnem, hform, by simp [ho.text, renderedText, h]⟩

/-- Presenting the inputs writes neither `out_valid` nor what decides it. -/
theorem validAfterDecode_presentInputs (s t : State) : ValidAfterDecode (presentInputs s) t ↔ ValidAfterDecode s t := by
  simp [ValidAfterDecode]

/-- Settles O29: the step loads `comb` of the inputs presented; each cause is the table lookup that fails, and what a failure
drives beside its kind is the agreement of the outputs. -/
theorem failingWordsGiveTheErrorValue : Obligations.FailingWordsGiveTheErrorValue := by
  intro s hd
  refine ⟨_, step_eq_loadOutputs_of_decodes hd, ?_⟩
  rw [loadOutputs_out]
  have hcoherent := coherent_combOutputs s.cfg (nextInputs s)
  refine ⟨drivenBy_combOutputs _ _, onlyOutputsChange_loadOutputs _ _,
    (validAfterDecode_presentInputs _ _).1 (validAfterDecode_loadOutputs _ _), fun h => ?opcode, fun h => ?funct,
    fun h => ?selector, error_value_of_coherent hcoherent, decode_ok_iff_combOutputs_ok _ _, fun h => (hcoherent.success h).1⟩
  case opcode => exact combOutputs_ok_err_of_decode_fail ((decode_eq_unknownOpcode_iff _).2 h)
  case funct => exact combOutputs_ok_err_of_decode_fail ((decode_eq_unknownFunctionCode_iff _).2 h)
  case selector => exact combOutputs_ok_err_of_decode_fail ((decode_eq_unhandledBranchSelector_iff _).2 h)

/-! ### The two branches of the selector table -/

/-- Settles O22: selectors 0 and 1 of the table; each meaning returns rs and the hex of the raw field, and reads no state. -/
theorem selectorBranchesPrintRsAndTheRawField : Obligations.SelectorBranchesPrintRsAndTheRawField := by
  refine ⟨fun w hop => ⟨fun hrt => ?bltz, fun hrt => ?bgez⟩, fun rs imm16 => ⟨?_, ?_⟩⟩
  case bltz => exact decode_of_selector w .bltz hop (hrt ▸ rfl)
  case bgez => exact decode_of_selector w .bgez hop (hrt ▸ rfl)
  all_goals exact alwaysGives_of_exec fun _ => rfl

end Sys2Proof.Machine
end

section
/-! SUPPORT and PROOFS. The jump family (R76, R77): its meanings with the target as a number. -/

namespace Sys2Proof.Machine

theorem exec_j (addr26 : BitVec 26) (s : State) :
    exec (.j addr26) s = returnOk ⟨.j, .jump, [hex (4 * addr26.toNat)]⟩ s := by
  rw [← jumpTarget_toNat]
  rfl

theorem exec_jal (addr26 : BitVec 26) (s : State) :
    exec (.jal addr26) s = returnOk ⟨.jal, .jump, [hex (4 * addr26.toNat)]⟩ s := by
  rw [← jumpTarget_toNat]
  rfl

/-- Settles O23: opcodes 2 and 3 of the table; each meaning returns the target of R44, which is four times the field. -/
theorem jumpsPrintFourTimesTheField : Obligations.JumpsPrintFourTimesTheField := by
  refine ⟨fun w => ⟨fun hop => ?j, fun hop => ?jal⟩, fun addr26 => ⟨?_, ?_⟩⟩
  case j => exact decode_of_opcode w .j (hop ▸ rfl)
  case jal => exact decode_of_opcode w .jal (hop ▸ rfl)
  · exact alwaysGives_of_exec (exec_j addr26)
  · exact alwaysGives_of_exec (exec_jal addr26)

end Sys2Proof.Machine
end

section
/-! SUPPORT and PROOFS. The load-upper-immediate family (R78): its line, whose one operand joins two parts. -/

namespace Sys2Proof.Machine

open Sys2Proof.Safety

/-- One operand string joins the register name and the hex literal, so R6 puts no comma between them. -/
theorem line_lui (a b : Text) : line "lui".toList [a ++ b] = "lui ".toList ++ a ++ b := by
  rw [line_one, List.append_assoc]
  rfl

/-- Settles O24: opcode 15 of the table; the meaning returns one operand, rt and the hex of the raw field, and reads no state. -/
theorem luiPrintsRtAndTheRawFieldUnseparated : Obligations.LuiPrintsRtAndTheRawFieldUnseparated := by
  refine ⟨fun w hop => ?lui, fun rt imm16 => ?gives⟩
  case lui => exact decode_of_opcode w .lui (hop ▸ rfl)
  case gives =>
    rw [← line_lui]
    exact alwaysGives_of_exec fun _ => rfl

end Sys2Proof.Machine
end

section
/-! SUPPORT and PROOFS. The load and store family (R79 to R82): its second operand as the statement chooses it. -/

namespace Sys2Proof.Machine

/-- The choice of R47 from its hex side, where `memOperand_eq` makes it from the decimal side. -/
theorem memOperand_eq_hex_or_dec (rs : RegIndex) (imm16 : BitVec 16) : memOperand rs imm16 =
    (if imm16.toNat ≥ 0x8000 then hex imm16.toNat else dec imm16.toNat) ++ "(".toList ++ reg rs ++ ")".toList := by
  rw [memOperand_eq]
  rcases Nat.lt_or_ge imm16.toNat 0x8000 with h | h
  · rw [if_pos h, if_neg (Nat.not_le.2 h)]
  · rw [if_neg (Nat.not_lt.2 h), if_pos h]

/-- Settles O25: opcodes 32, 35, 40 and 43 of the table; each meaning returns rt and the displacement before (rs), and reads
no state. -/
theorem loadsAndStoresPrintRtAndDisplacementOfRs : Obligations.LoadsAndStoresPrintRtAndDisplacementOfRs := by
  refine ⟨fun w => ⟨fun hop => ?lb, fun hop => ?lw, fun hop => ?sb, fun hop => ?sw⟩, fun rt rs imm16 => ?gives⟩
  case lb => exact decode_of_opcode w .lb (hop ▸ rfl)
  case lw => exact decode_of_opcode w .lw (hop ▸ rfl)
  case sb => exact decode_of_opcode w .sb (hop ▸ rfl)
  case sw => exact decode_of_opcode w .sw (hop ▸ rfl)
  case gives =>
    rw [← memOperand_eq_hex_or_dec]
    refine ⟨?_, ?_, ?_, ?_⟩
    all_goals exact alwaysGives_of_exec fun _ => rfl

end Sys2Proof.Machine
end

section
/-! SUPPORT and PROOFS. The branch family (R83 to R86): its target as the statement writes it. -/

namespace Sys2Proof.Machine

/-- The target of R43 with the offset as a two's complement field, where `branchOffset` sign-extends by `sext16`. -/
theorem branchTarget_toNat_eq_emod (c : Config) (pc : Word) (imm16 : BitVec 16) : (branchTarget c pc imm16).toNat =
    (((pc.toNat : Int) + 4 + 4 * (if c.branchOffsetSigned then imm16.toInt else imm16.toNat)) % 2 ^ 32).toNat := by
  rw [branchTarget_toNat, branchOffset, sext16_eq_toInt]

/-- Settles O26: opcodes 4 to 7 of the table; each meaning returns rt, rs and the target, which reads the `pc` port and the
offset setting and no other state. -/
theorem branchesPrintRtRsAndTheTarget : Obligations.BranchesPrintRtRsAndTheTarget := by
  refine ⟨fun w => ⟨fun hop => ?beq, fun hop => ?bne, fun hop => ?blez, fun hop => ?bgtz⟩, fun rt rs imm16 => ?gives⟩
  case beq => exact decode_of_opcode w .beq (hop ▸ rfl)
  case bne => exact decode_of_opcode w .bne (hop ▸ rfl)
  case blez => exact decode_of_opcode w .blez (hop ▸ rfl)
  case bgtz => exact decode_of_opcode w .bgtz (hop ▸ rfl)
  case gives =>
    simp only [← branchTarget_toNat_eq_emod]
    refine ⟨?_, ?_, ?_, ?_⟩
    all_goals exact alwaysGives_of_exec fun _ => rfl

end Sys2Proof.Machine
end

section
/-! PROOFS. The immediate arithmetic and logic family (R87 to R91). -/

namespace Sys2Proof.Machine

/-- Settles O27: opcodes 8, 10 and 12 to 14 of the table; each meaning returns rt, rs and the signed hex of the field that
`sext16` extends, in the logical ones too, and reads no state. -/
theorem immediatesPrintRtRsAndTheSignedHex : Obligations.ImmediatesPrintRtRsAndTheSignedHex := by
  refine ⟨fun w => ⟨fun hop => ?addi, fun hop => ?slti, fun hop => ?andi, fun hop => ?ori, fun hop => ?xori⟩,
    fun rt rs imm16 => ?gives⟩
  case addi => exact decode_of_opcode w .addi (hop ▸ rfl)
  case slti => exact decode_of_opcode w .slti (hop ▸ rfl)
  case andi => exact decode_of_opcode w .andi (hop ▸ rfl)
  case ori => exact decode_of_opcode w .ori (hop ▸ rfl)
  case xori => exact decode_of_opcode w .xori (hop ▸ rfl)
  case gives =>
    rw [← sext16_eq_toInt]
    refine ⟨?_, ?_, ?_, ?_, ?_⟩
    all_goals exact alwaysGives_of_exec fun _ => rfl

end Sys2Proof.Machine
end

section
/-! SUPPORT and PROOFS. The encoder against the dispatch: a word decodes to a mnemonic's instruction exactly when it carries the
fixed bits of the mnemonic's row (R39 to R41), and each layout of the encoder keeps or clears whole fields (R34 to R36). -/

namespace Sys2Proof.Machine

open Sys2Proof.Safety Sys2Proof.Laws.FixedBits

/-! ### A word is recognised by its fixed bits -/

/-- The converse of `carries_of_decode_ok`. -/
theorem decode_of_carries {w : Word} {m : Mnemonic} (h : Carries w (fixedBits m)) : decode w = .ok (assemble m w) := by
  obtain ⟨hop, hfunct, hselector⟩ := h
  cases m
  case bltz | bgez => exact decode_of_selector w _ hop (hselector _ rfl ▸ rfl)
  case j | jal | lui | lb | lw | sb | sw | beq | bne | blez | bgtz | addi | slti | andi | ori | xori =>
    exact decode_of_opcode w _ (hop ▸ rfl)
  all_goals exact decode_of_functionCode _ hop rfl (hfunct _ rfl)

theorem decode_mnemonic_iff_carries (w : Word) (m : Mnemonic) :
    (∃ i, decode w = .ok i ∧ i.mnemonic = m) ↔ Carries w (fixedBits m) where
  mp := fun ⟨_, hi, hm⟩ => hm ▸ carries_of_decode_ok hi
  mpr h := ⟨_, decode_of_carries h, assemble_mnemonic m w⟩

/-! ### Decoding an encoded instruction -/

theorem carries_encode (i : Instr) : Carries (encode i) (fixedBits i.mnemonic) := by
  cases i
  case bltz | bgez => exact carries_encodeI_selector _ _ _ _
  case j | jal => exact carries_encodeJ _ _
  case lui | lb | lw | sb | sw | beq | bne | blez | bgtz | addi | slti | andi | ori | xori =>
    exact carries_encodeI _ _ _ _
  all_goals exact carries_encodeR _ _ _ _ _

/-- The fields that an instruction's row renders are where the encoder puts them. -/
theorem assemble_encode (i : Instr) : assemble i.mnemonic (encode i) = i := by
  cases i <;> simp [encode, Instr.mnemonic, assemble]

/-- Settles O10: the encoded word carries its row's fixed bits, and its fields are the operands. -/
theorem decodeOfEncodeIsTheInstruction : Obligations.DecodeOfEncodeIsTheInstruction := fun i => by
  rw [decode_of_carries (carries_encode i), assemble_encode]

/-! ### Fields under a mask -/

theorem field_and (w mask : Word) (offset width : Nat) :
    field (w &&& mask) offset width = field w offset width &&& field mask offset width := by
  simp only [field_eq_extractLsb', BitVec.extractLsb'_and]

theorem field_and_of_covered {w mask : Word} {offset width : Nat}
    (h : field mask offset width = BitVec.allOnes width) : field (w &&& mask) offset width = field w offset width := by
  rw [field_and, h, BitVec.and_allOnes]

theorem field_and_of_cleared {w mask : Word} {offset width : Nat} (h : field mask offset width = 0) :
    field (w &&& mask) offset width = 0 := by
  rw [field_and, h]
  exact BitVec.and_zero

/-! ### A word from its fields -/

theorem eq_encodeR {w : Word} {rs rt rd : RegIndex} {shamt : BitVec 5} {funct : BitVec 6} (hop : opcodeOf w = 0)
    (hrs : rsOf w = rs) (hrt : rtOf w = rt) (hrd : rdOf w = rd) (hshamt : shamtOf w = shamt) (hfunct : functOf w = funct) :
    w = encodeR rs rt rd shamt funct := by
  rw [eq_append_functOf w, hop, hrs, hrt, hrd, hshamt, hfunct]
  rfl

theorem eq_encodeI {w : Word} {op : BitVec 6} {rs rt : RegIndex} {imm16 : BitVec 16} (hop : opcodeOf w = op)
    (hrs : rsOf w = rs) (hrt : rtOf w = rt) (himm16 : imm16Of w = imm16) : w = encodeI op rs rt imm16 := by
  rw [eq_append_imm16Of w, hop, hrs, hrt, himm16]
  rfl

theorem eq_encodeJ {w : Word} {op : BitVec 6} {addr26 : BitVec 26} (hop : opcodeOf w = op)
    (haddr26 : addr26Of w = addr26) : w = encodeJ op addr26 := by
  rw [eq_opcodeOf_append_addr26Of w, hop, haddr26]
  rfl

/-! ### What encoding clears -/

/-- Form by form, the encoder writes the fixed bits and the rendered fields where they stand in the word, and 0 elsewhere. -/
theorem encode_assemble_of_carries {w : Word} {m : Mnemonic} (h : Carries w (fixedBits m)) :
    encode (assemble m w) = w &&& readBits (formOf m) := by
  have kept {offset width : Nat} (hmask : field (readBits (formOf m)) offset width = BitVec.allOnes width) :
      field (w &&& readBits (formOf m)) offset width = field w offset width := field_and_of_covered hmask
  have zero {offset width : Nat} (hmask : field (readBits (formOf m)) offset width = 0) :
      field (w &&& readBits (formOf m)) offset width = 0 := field_and_of_cleared hmask
  have hop : opcodeOf (w &&& readBits (formOf m)) = (fixedBits m).opcode := (kept (opcodeOf_readBits _)).trans h.1
  obtain ⟨-, hfunct, hselector⟩ := h
  symm
  cases m
  case sll | srl | sra =>
    exact eq_encodeR hop (zero rfl) (kept rfl) (kept rfl) (kept rfl) ((kept rfl).trans (hfunct _ rfl))
  case jr | jalr =>
    exact eq_encodeR hop (kept rfl) (zero rfl) (zero rfl) (zero rfl) ((kept rfl).trans (hfunct _ rfl))
  case syscall | break_ =>
    exact eq_encodeR hop (zero rfl) (zero rfl) (zero rfl) (zero rfl) ((kept rfl).trans (hfunct _ rfl))
  case mfhi | mthi | mflo | mtlo =>
    exact eq_encodeR hop (zero rfl) (zero rfl) (kept rfl) (zero rfl) ((kept rfl).trans (hfunct _ rfl))
  case mult | div =>
    exact eq_encodeR hop (kept rfl) (kept rfl) (zero rfl) (zero rfl) ((kept rfl).trans (hfunct _ rfl))
  case add | sub | and | or | xor | nor | slt =>
    exact eq_encodeR hop (kept rfl) (kept rfl) (kept rfl) (zero rfl) ((kept rfl).trans (hfunct _ rfl))
  case bltz | bgez => exact eq_encodeI hop (kept rfl) ((kept rfl).trans (hselector _ rfl)) (kept rfl)
  case j | jal => exact eq_encodeJ hop (kept rfl)
  case lui => exact eq_encodeI hop (zero rfl) (kept rfl) (kept rfl)
  case lb | lw | sb | sw | beq | bne | blez | bgtz | addi | slti | andi | ori | xori =>
    exact eq_encodeI hop (kept rfl) (kept rfl) (kept rfl)

/-- Settles O11: a recognised word carries its row's fixed bits, and encoding clears the fields its form does not read. -/
theorem encodeOfDecodeClearsOnlyIgnoredBits : Obligations.EncodeOfDecodeClearsOnlyIgnoredBits := fun w i h => by
  rw [← encode_assemble_of_carries (carries_of_decode_ok h), ← eq_assemble_of_decode h]

/-! ### The rows of the opcode table -/

theorem carries_rowMatch (m : Mnemonic) : Carries (rowMatch m) (fixedBits m) := by
  cases m <;> unfold Carries <;> decide

/-- A row's mask covers the fields that the row fixes. -/
theorem fields_rowMask (m : Mnemonic) : opcodeOf (rowMask m) = BitVec.allOnes 6 ∧
    ((fixedBits m).funct ≠ none → functOf (rowMask m) = BitVec.allOnes 6) ∧
    ((fixedBits m).selector ≠ none → rtOf (rowMask m) = BitVec.allOnes 5) := by
  cases m <;> decide

/-- Words that agree under a row's mask carry the same of its fixed bits. -/
theorem carries_of_same_rowMask {w w' : Word} {m : Mnemonic} (hw : w' &&& rowMask m = w &&& rowMask m)
    (h : Carries w (fixedBits m)) : Carries w' (fixedBits m) := by
  obtain ⟨hop, hfunct, hselector⟩ := h
  obtain ⟨hmop, hmfunct, hmselector⟩ := fields_rowMask m
  refine ⟨(field_eq_of_covered hw hmop).trans hop, fun f hf => ?_, fun r hr => ?_⟩
  · exact (field_eq_of_covered hw (hmfunct (by simp [hf]))).trans (hfunct f hf)
  · exact (field_eq_of_covered hw (hmselector (by simp [hr]))).trans (hselector r hr)

/-- A word that carries a row's fixed bits has 0 in every other field under the row's mask, as the row's match has. -/
theorem and_rowMask_of_carries {w : Word} {m : Mnemonic} (h : Carries w (fixedBits m)) :
    w &&& rowMask m = rowMatch m := by
  have kept {offset width : Nat} (hmask : field (rowMask m) offset width = BitVec.allOnes width) :
      field (w &&& rowMask m) offset width = field w offset width := field_and_of_covered hmask
  have zero {offset width : Nat} (hmask : field (rowMask m) offset width = 0) :
      field (w &&& rowMask m) offset width = 0 := field_and_of_cleared hmask
  have hop : opcodeOf (w &&& rowMask m) = (fixedBits m).opcode := (kept (fields_rowMask m).1).trans h.1
  obtain ⟨-, hfunct, hselector⟩ := h
  cases m
  case bltz | bgez => exact eq_encodeI hop (zero rfl) ((kept rfl).trans (hselector _ rfl)) (zero rfl)
  case j | jal | lui | lb | lw | sb | sw | beq | bne | blez | bgtz | addi | slti | andi | ori | xori =>
    exact eq_encodeJ hop (zero rfl)
  all_goals exact eq_encodeR hop (zero rfl) (zero rfl) (zero rfl) (zero rfl) ((kept rfl).trans (hfunct _ rfl))

theorem carries_iff_and_rowMask (w : Word) (m : Mnemonic) :
    Carries w (fixedBits m) ↔ w &&& rowMask m = rowMatch m where
  mp := and_rowMask_of_carries
  mpr h := carries_of_same_rowMask (h.trans (and_rowMask_of_carries (carries_rowMatch m)).symm) (carries_rowMatch m)

/-- Settles O12: both sides say that the word carries the row's fixed bits. -/
theorem decodeFollowsTheOpcodeTableRows : Obligations.DecodeFollowsTheOpcodeTableRows := fun w m =>
  (decode_mnemonic_iff_carries w m).trans (carries_iff_and_rowMask w m)

end Sys2Proof.Machine
end

section
/-! SUPPORT and PROOFS. The text of an instruction determines it (R6, R7, R48): the separators give back the mnemonic and the
operand strings, and each way of spelling an operand is injective. -/

namespace Sys2Proof.Machine

open Sys2Proof.Safety

/-! ### Cutting a line at its separators -/

theorem takeWhile_append_cons_of_notMem {ch : Char} {t : Text} (u : Text) (h : ch ∉ t) :
    (t ++ ch :: u).takeWhile (· ≠ ch) = t := by
  rw [List.takeWhile_append_of_pos fun a ha => by simpa using ne_of_mem_of_not_mem ha h]
  simp

/-- A character that neither first part holds ends both at the same place. -/
theorem append_cons_inj_of_notMem_both {ch : Char} {t t' u u' : Text} (ht : ch ∉ t) (ht' : ch ∉ t')
    (h : t ++ ch :: u = t' ++ ch :: u') : t = t' ∧ u = u' := by
  have hfirst := congrArg (List.takeWhile (· ≠ ch)) h
  rw [takeWhile_append_cons_of_notMem u ht, takeWhile_append_cons_of_notMem u' ht'] at hfirst
  subst hfirst
  exact ⟨rfl, List.cons_injective (List.append_cancel_left h)⟩

theorem space_notMem_of_noSeparator {t : Text} (h : NoSeparator t) : ' ' ∉ t := fun hmem => (h _ hmem).1 rfl

theorem comma_notMem_of_noSeparator {t : Text} (h : NoSeparator t) : ',' ∉ t := fun hmem => (h _ hmem).2 rfl

theorem intercalate_comma_inj {os os' : List Text} (hos : ∀ o ∈ os, NoSeparator o) (hos' : ∀ o ∈ os', NoSeparator o)
    (hne : os ≠ []) (hne' : os' ≠ []) (h : List.intercalate [','] os = List.intercalate [','] os') : os = os' := by
  rw [← List.splitOn_intercalate ',' (fun o ho => comma_notMem_of_noSeparator (hos o ho)) hne, h,
    List.splitOn_intercalate ',' (fun o ho => comma_notMem_of_noSeparator (hos' o ho)) hne']

theorem space_mem_line_cons (name o : Text) (os : List Text) : ' ' ∈ line name (o :: os) :=
  List.mem_append_right name List.mem_cons_self

/-- A line gives back its name, up to the first space, and its operands, between the commas (R6, R7). -/
theorem line_inj {name name' : Text} {os os' : List Text} (hname : NoSeparator name) (hname' : NoSeparator name')
    (hos : ∀ o ∈ os, NoSeparator o) (hos' : ∀ o ∈ os', NoSeparator o) (h : line name os = line name' os') :
    name = name' ∧ os = os' := by
  have hspace : ' ' ∉ line name [] := space_notMem_of_noSeparator hname
  have hspace' : ' ' ∉ line name' [] := space_notMem_of_noSeparator hname'
  cases os with
  | nil =>
    cases os' with
    | nil => exact ⟨h, rfl⟩
    | cons o' os' => exact absurd (h ▸ space_mem_line_cons name' o' os') hspace
  | cons o os =>
    cases os' with
    | nil => exact absurd (h ▸ space_mem_line_cons name o os) hspace'
    | cons o' os' =>
      obtain ⟨hn, hjoin⟩ := append_cons_inj_of_notMem_both hspace hspace' h
      exact ⟨hn, intercalate_comma_inj hos hos' (List.cons_ne_nil _ _) (List.cons_ne_nil _ _) hjoin⟩

theorem noSeparator_mnemonicText (m : Mnemonic) : NoSeparator (mnemonicText m) :=
  noSeparator_of_all (by cases m <;> decide)

theorem mnemonicText_injective : Function.Injective mnemonicText := fun m m' h => by
  apply mnemonicId_injective
  apply BitVec.eq_of_toNat_eq
  rw [← spellings_idxOf_mnemonicText, h, spellings_idxOf_mnemonicText]

/-! ### Numbers and names as operands -/

@[simp] theorem reg_inj {i j : RegIndex} : reg i = reg j ↔ i = j := reg_injective.eq_iff

@[simp] theorem hex_inj {m n : Nat} : hex m = hex n ↔ m = n := hex_injective.eq_iff

theorem dec_natCast (n : Nat) : dec n = digits 10 n := dec_of_nonneg (Int.natCast_nonneg n)

@[simp] theorem dec_natCast_inj {m n : Nat} : dec m = dec n ↔ m = n := by
  rw [dec_natCast, dec_natCast]
  exact (digits_injective (by decide) (by decide)).eq_iff

@[simp] theorem sext16_inj {v v' : BitVec 16} : sext16 v = sext16 v' ↔ v = v' := by
  rw [sext16_eq_toInt, sext16_eq_toInt, BitVec.toInt_inj]

@[simp] theorem shex_inj {i j : Int} : shex i = shex j ↔ i = j := shex_injective.eq_iff

/-! ### Targets as operands -/

@[simp] theorem jumpTarget_inj {a a' : BitVec 26} : jumpTarget a = jumpTarget a' ↔ a = a' := by
  rw [BitVec.toNat_eq, jumpTarget_toNat, jumpTarget_toNat, BitVec.toNat_eq]
  omega

theorem branchOffset_range (c : Config) (v : BitVec 16) : -2 ^ 15 ≤ branchOffset c v ∧ branchOffset c v < 2 ^ 16 := by
  rw [branchOffset, sext16_eq_toInt, BitVec.toInt_eq_toNat_cond]
  split <;> omega

theorem branchOffset_injective (c : Config) : Function.Injective (branchOffset c) := fun v v' h => by
  unfold branchOffset at h
  split at h
  · exact sext16_inj.1 h
  · exact BitVec.eq_of_toNat_eq (by omega)

/-- Two offsets differ by less than 2^30, so that four times their difference is no multiple of 2^32 but 0. -/
@[simp] theorem branchTarget_inj {c : Config} {pc : Word} {v v' : BitVec 16} :
    branchTarget c pc v = branchTarget c pc v' ↔ v = v' := by
  refine ⟨fun h => branchOffset_injective c ?_, congrArg _⟩
  have hrange := branchOffset_range c v
  have hrange' := branchOffset_range c v'
  rw [BitVec.toNat_eq, branchTarget_toNat, branchTarget_toNat] at h
  omega

/-! ### The displacement and the operands of two parts -/

theorem notMem_digits {ch : Char} (h : ch ∉ "0123456789abcdef".toList) {b : Nat} (hb : 2 ≤ b) (hb16 : b ≤ 16) (n : Nat) :
    ch ∉ digits b n := fun hmem => h (List.mem_of_mem_take ((numeral_digits hb hb16 n).digit ch hmem))

/-- Only the hex side of a displacement holds an `x`. -/
theorem x_mem_displacement_iff (v : BitVec 16) : 'x' ∈ displacement v ↔ 0x8000 ≤ v.toNat := by
  rcases Nat.lt_or_ge v.toNat 0x8000 with h | h
  · rw [displacement_of_lt h, dec_natCast]
    exact iff_of_false (notMem_digits (by decide) (by decide) (by decide) _) (Nat.not_le.2 h)
  · rw [displacement_of_ge h]
    exact iff_of_true (by simp [hex]) h

theorem paren_notMem_displacement (v : BitVec 16) : '(' ∉ displacement v := by
  rcases Nat.lt_or_ge v.toNat 0x8000 with h | h
  · rw [displacement_of_lt h, dec_natCast]
    exact notMem_digits (by decide) (by decide) (by decide) _
  · rw [displacement_of_ge h]
    simp [hex, notMem_digits]

theorem displacement_injective : Function.Injective displacement := fun v v' h => by
  apply BitVec.eq_of_toNat_eq
  have hside := x_mem_displacement_iff v
  rw [h, x_mem_displacement_iff v'] at hside
  rcases Nat.lt_or_ge v.toNat 0x8000 with hlt | hge
  · rw [displacement_of_lt hlt, displacement_of_lt (by omega)] at h
    exact dec_natCast_inj.1 h
  · rw [displacement_of_ge hge, displacement_of_ge (hside.2 hge)] at h
    exact hex_inj.1 h

@[simp] theorem memOperand_inj {rs rs' : RegIndex} {v v' : BitVec 16} :
    memOperand rs v = memOperand rs' v' ↔ rs = rs' ∧ v = v' := by
  refine ⟨fun h => ?_, fun ⟨hrs, hv⟩ => by rw [hrs, hv]⟩
  rw [memOperand, memOperand, List.append_assoc, List.append_assoc] at h
  obtain ⟨hdisp, hrest⟩ :=
    append_cons_inj_of_notMem_both (paren_notMem_displacement v) (paren_notMem_displacement v') h
  exact ⟨reg_inj.1 (List.append_cancel_right hrest), displacement_injective hdisp⟩

/-- No register name begins another. -/
theorem eq_of_reg_prefix_reg : ∀ i j : RegIndex, reg i <+: reg j → i = j := by
  decide

@[simp] theorem reg_append_hex_inj {rt rt' : RegIndex} {n n' : Nat} :
    reg rt ++ hex n = reg rt' ++ hex n' ↔ rt = rt' ∧ n = n' := by
  refine ⟨fun h => ?_, fun ⟨hrt, hn⟩ => by rw [hrt, hn]⟩
  have hpre : reg rt' <+: reg rt ++ hex n := h ▸ List.prefix_append _ _
  have hrt : rt = rt' := by
    rcases List.prefix_or_prefix_of_prefix (List.prefix_append _ _) hpre with hp | hp
    · exact eq_of_reg_prefix_reg rt rt' hp
    · exact (eq_of_reg_prefix_reg rt' rt hp).symm
  subst hrt
  exact ⟨rfl, hex_inj.1 (List.append_cancel_left h)⟩

/-! ### The operands of an instruction -/

/-- The operand strings that the meaning of an instruction returns (R53 to R91), at the parameters `c` and the address `pc`. -/
def operandTexts (c : Config) (pc : Word) : Instr → List Text
  | .sll rd rt shamt | .srl rd rt shamt | .sra rd rt shamt => [reg rd, reg rt, dec shamt.toNat]
  | .jr rs | .jalr rs => [reg rs]
  | .syscall | .break_ => []
  | .mfhi rd | .mthi rd | .mflo rd | .mtlo rd => [reg rd]
  | .mult rs rt | .div rs rt => [reg rs, reg rt]
  | .add rd rs rt | .sub rd rs rt | .and rd rs rt | .or rd rs rt | .xor rd rs rt | .nor rd rs rt | .slt rd rs rt =>
    [reg rd, reg rs, reg rt]
  | .bltz rs imm16 | .bgez rs imm16 => [reg rs, hex imm16.toNat]
  | .j addr26 | .jal addr26 => [hex (jumpTarget addr26).toNat]
  | .lui rt imm16 => [reg rt ++ hex imm16.toNat]
  | .lb rt rs imm16 | .lw rt rs imm16 | .sb rt rs imm16 | .sw rt rs imm16 => [reg rt, memOperand rs imm16]
  | .beq rt rs imm16 | .bne rt rs imm16 | .blez rt rs imm16 | .bgtz rt rs imm16 =>
    [reg rt, reg rs, hex (branchTarget c pc imm16).toNat]
  | .addi rt rs imm16 | .slti rt rs imm16 | .andi rt rs imm16 | .ori rt rs imm16 | .xori rt rs imm16 =>
    [reg rt, reg rs, shex (sext16 imm16)]

theorem exec_eq_returnOk_operandTexts (i : Instr) (s : State) :
    exec i s = returnOk ⟨i.mnemonic, formOf i.mnemonic, operandTexts s.cfg s.inp.pc i⟩ s := by
  cases i <;> rfl

theorem noSeparator_operandTexts (c : Config) (pc : Word) (i : Instr) : ∀ o ∈ operandTexts c pc i, NoSeparator o := by
  cases i <;> simp [operandTexts]

theorem exec_text {i : Instr} {s t : State} (h : exec i s = .next t) :
    t.out.text = line (mnemonicText i.mnemonic) (operandTexts s.cfg s.inp.pc i) := by
  rw [exec_eq_returnOk_operandTexts] at h
  cases h
  rw [loadOutputs_out, okOutputs_text, renderOk_eq_line]

/-- With the mnemonic known, the operand strings give back every field that its row renders. -/
theorem assemble_eq_of_operandTexts {m : Mnemonic} {w w' : Word} {c : Config} {pc : Word}
    (h : operandTexts c pc (assemble m w) = operandTexts c pc (assemble m w')) : assemble m w = assemble m w' := by
  cases m
  case syscall | break_ => rfl
  all_goals simpa [assemble, operandTexts, ← BitVec.toNat_eq] using h

/-- Settles O44: the text is a line, which gives back the mnemonic and the operand strings; the instruction is the mnemonic's
on the fields of its word, and those the strings determine. -/
theorem textDeterminesTheInstruction : Obligations.TextDeterminesTheInstruction := by
  intro s t t' i i' h h' htext
  rw [exec_text h, exec_text h'] at htext
  obtain ⟨hname, hoperands⟩ := line_inj (noSeparator_mnemonicText _) (noSeparator_mnemonicText _)
    (noSeparator_operandTexts _ _ i) (noSeparator_operandTexts _ _ i') htext
  have hm : i.mnemonic = i'.mnemonic := mnemonicText_injective hname
  rw [← assemble_encode i, ← assemble_encode i', ← hm] at hoperands ⊢
  exact assemble_eq_of_operandTexts hoperands

end Sys2Proof.Machine
end

section
/-! PROOFS. Resets and hazards (R107 to R109): what each edge does to `out_valid`, the payload and the count of draws, and what no
step changes. -/

namespace Sys2Proof.Machine

open Sys2Proof.Safety

/-! ### Which edge a step is -/

theorem step_of_rst {s : State} (hp : s.cfg.pipelined = true) (hr : (nextInputs s).rst = true) :
    step s = .next (resetEdge (presentInputs s)) :=
  step_of_resetEdge s (by simp [stepAction, hp, hr])

theorem step_of_no_rst_no_valid {s : State} (hp : s.cfg.pipelined = true) (hr : (nextInputs s).rst = false)
    (hv : (nextInputs s).inValid = false) : step s = .next (idleEdge (presentInputs s)) :=
  step_of_idleEdge s (by simp [stepAction, hp, hr, hv])

/-! ### One step -/

theorem decodes_withFetchWord (s : State) (nbits w : Nat) : Decodes (s.withFetchWord nbits w) := fun _ => ⟨rfl, rfl⟩

theorem nextInputs_withFetchWord (s : State) (w : Word) : nextInputs (s.withFetchWord 32 w.toNat) =
    { word := w, pc := s.inp.pc, rst := false, inValid := true } := by
  simp [State.withFetchWord, presentWord, nextInputs, Nat.mod_eq_of_lt w.isLt]

/-- Settles O28: a decoding step is the decode of what is presented; presenting writes the ports and the schedule alone; a
fetched word stands first in the schedule, valid and with no reset. -/
theorem stepRunsTheDecodedInstruction : Obligations.StepRunsTheDecodedInstruction := by
  refine ⟨fun s i => step_eq_exec_of_decodes, fun s => by simp, fun s w => ⟨decodes_withFetchWord s 32 w.toNat, ?_⟩⟩
  rw [nextInputs_withFetchWord]
  exact ⟨rfl, rfl⟩

/-- Settles O38: the step is an idle edge, which writes `out_valid` and, before the first reset edge, the count of draws. -/
theorem idleEdgeHoldsThePayload : Obligations.IdleEdgeHoldsThePayload := by
  intro s hp hr hv
  refine ⟨_, step_of_no_rst_no_valid hp hr hv, fun hseen => by simp [hseen], ?_⟩
  cases hseen : s.resetSeen <;> simp [hseen]

/-- Settles O42: `out_valid` is 0 at reset, so that no output may be read; the free text is within TEXT_MAX. -/
theorem outputsAgreeAtReset : Obligations.OutputsAgreeAtReset := by
  have hunreadable : ¬ Readable State.reset := by simp [Readable, State.reset, Config.standard]
  exact ⟨⟨Outputs.free_text_length_le 0, fun h => absurd h hunreadable⟩, rfl, rfl, rfl⟩

theorem step_outValid_of_combinational {s t : State} (hp : s.cfg.pipelined = false) (h : step s = .next t) :
    t.outValid = s.outValid := by
  rcases step_next_cases h with ⟨-, rfl⟩ | ⟨hp', -⟩ | ⟨hp', -⟩
  · simp [hp]
  all_goals simp [hp] at hp'

/-- A free value is drawn at a reset edge, for the payload, and at every edge before the first one, for `out_valid`. -/
theorem step_draws {s t : State} (h : step s = .next t) : t.draws =
    s.draws + if s.cfg.pipelined = true ∧ ((nextInputs s).rst = true ∨ s.resetSeen = false) then 1 else 0 := by
  rcases step_cases h with ⟨hd, -⟩ | ⟨hp, hr, rfl⟩ | ⟨hp, hr, -, rfl⟩
  · rw [step_eq_loadOutputs_of_decodes hd] at h
    cases h
    cases hp : s.cfg.pipelined
    · simp [Unreset, hp]
    · simp [Unreset, hp, (hd hp).1]
  · simp [hp, hr]
  · cases hseen : s.resetSeen <;> simp [hp, hr, hseen]

/-- Settles O43: what each of the three actions of a step writes, field by field. -/
theorem stepsNeverChangeTheParameters : Obligations.StepsNeverChangeTheParameters := fun _ _ h =>
  ⟨step_cfg h, step_inp h, step_pending h, fun hp => step_outValid_of_combinational hp h, step_draws h⟩

/-- Settles O39: `rst` decides the edge whatever the other inputs are; from power-up the valid edge is place 1 of a schedule
with a reset edge before it. -/
theorem resetEdgeClearsOutValidFirst : Obligations.ResetEdgeClearsOutValidFirst := by
  refine ⟨fun s hp hr => ⟨_, step_of_rst hp hr, ?_⟩, fun c x y rest hp hx hy hvalid => ?_⟩
  · exact ⟨resetEdge_outValid _, resetEdge_resetSeen _, Outputs.free_text_length_le _, by simp, by simp, by simp⟩
  · obtain ⟨t, hrun, -, -, hpending, hcomb, hout⟩ :=
      scheduleGivesEachResultAtItsOwnStep (State.powerUp c (x :: y :: rest)) 1 y rfl fun _ => ⟨hy, hvalid⟩
    exact ⟨t, hrun, hout hp (.inr ⟨x, List.mem_cons_self, hx⟩), hcomb, hpending⟩

/-! ### Before the first reset edge -/

/-- An edge with `rst = 0` before the first reset edge, idle or not, leaves `out_valid` the next free value (R107, I3). -/
theorem step_outValid_of_unreset {s t : State} (hu : Unreset s) (hr : (nextInputs s).rst = false)
    (h : step s = .next t) : t.outValid = Config.freeOutValid s.draws := by
  obtain ⟨hp, hseen⟩ := hu
  rcases step_cases h with ⟨hd, -⟩ | ⟨-, hr', -⟩ | ⟨-, -, -, rfl⟩
  · rw [step_eq_loadOutputs_of_decodes hd] at h
    cases h
    simp [hp, hseen]
  · simp [hr] at hr'
  · simp [hseen]

/-- Such an edge leaves the machine before its first reset edge, with one more value drawn. -/
theorem step_unreset {s t : State} (hu : Unreset s) (hr : (nextInputs s).rst = false) (h : step s = .next t) :
    Unreset t ∧ t.draws = s.draws + 1 := by
  obtain ⟨hp, hseen⟩ := hu
  refine ⟨⟨by rw [step_cfg h, hp], ?_⟩, ?_⟩
  · simp [step_resetSeen h, hseen, hr]
  · simp [step_draws h, hp, hseen]

/-- A run within a schedule of entries with `rst = 0` draws a value at each of its steps. -/
theorem run_of_unreset {k : Nat} {s : State} (hu : Unreset s) (hk : k < s.pending.length)
    (hr : ∀ x ∈ s.pending.take (k + 1), x.rst = false) :
    ∃ t : State, Host.Core.run Sys2Proof.core (k + 1) s = .next t ∧ Unreset t ∧
      t.outValid = Config.freeOutValid (s.draws + k) ∧ t.draws = s.draws + k + 1 ∧ t.pending = s.pending.drop (k + 1) := by
  obtain ⟨x, rest, hpending⟩ := List.exists_cons_of_length_pos (Nat.zero_lt_of_lt hk)
  rw [hpending, List.take_succ_cons, List.forall_mem_cons] at hr
  obtain ⟨hx, hrest⟩ := hr
  have hnext : (nextInputs s).rst = false := by simpa [nextInputs, hpending] using hx
  obtain ⟨t, ht⟩ := step_total s
  obtain ⟨hut, hdraws⟩ := step_unreset hu hnext ht
  have hpt : t.pending = rest := by simp [step_pending ht, hpending]
  rw [run_succ_of_step k ht]
  cases k with
  | zero => exact ⟨t, rfl, hut, step_outValid_of_unreset hu hnext ht, hdraws, by simp [hpt, hpending]⟩
  | succ k =>
    obtain ⟨u, hrun, huu, hout, hdrawsu, hpu⟩ :=
      run_of_unreset hut (by simpa [hpt, hpending] using hk) (by simpa [hpt] using hrest)
    have hcount : s.draws + 1 + k = s.draws + (k + 1) := by omega
    rw [hdraws, hcount] at hout hdrawsu
    exact ⟨u, hrun, huu, hout, hdrawsu, by simp [hpu, hpt, hpending]⟩

/-- Settles O45: before the first reset edge each edge with `rst = 0` draws `out_valid` afresh; a step's record of a reset edge
is that of its actions. -/
theorem outValidIsUnspecifiedUntilTheFirstResetEdge : Obligations.OutValidIsUnspecifiedUntilTheFirstResetEdge := by
  refine ⟨fun s k hp hseen hk hr => ?_, fun s t => step_resetSeen⟩
  obtain ⟨t, hrun, ⟨-, hseent⟩, hout, hdraws, hpending⟩ := run_of_unreset ⟨hp, hseen⟩ hk hr
  exact ⟨t, hrun, hseent, hout, hdraws, hpending⟩

end Sys2Proof.Machine
end
